-- ==== Sys2Proof/Word.lean ====
section
/-!
DEFINITION. The widths of everything the spec counts in bits: words and cells (R5, R20, R31) and command operands
(R8, decision D5 of spec/92_eei_decisions.md).
-/
namespace Sys2Proof

/-- A 16-bit unit of code or data: a memory cell, an instruction word, a literal word (R5, R14, R80). -/
abbrev Word := BitVec 16

/-- Half a cell; it exists only in the serialised image (R51, R55). -/
abbrev Byte := BitVec 8

/-- A cursor position, 0 .. 131072 (R22): `cursor`, `SAVED` and `FAULT_POS`. -/
abbrev Cursor := BitVec 18

/-- The address of a cell, 0 .. 131071 (R50): the operand of `patchSeek`, `poke`, `peek` (R8). -/
abbrev CellAddr := BitVec 17

/-- A register operand of the target CPU, an index 0 .. 7 (R25). -/
abbrev Reg := BitVec 3

/-- A value of the primary field `op0`: an ALU code (R27) or a condition code (R28). -/
abbrev Code := BitVec 4

/-- An `address` or `targetAddress` operand, 32 bits unsigned (R6 `ADDR_IN_W`, R8). -/
abbrev Addr := BitVec 32

end Sys2Proof
end

