-- ==== Sys2Proof/Machine/WordModel.lean ====
section
/-!
DEFINITION. The Word Model (spec/40_word_model.md): the bit-field compositor every command builds its instruction word
with, the assembly formulas of R83, and the named code values of R26 to R28.
-/
namespace Sys2Proof

/-- The six fields the compositor knows (R120). -/
inductive WordField where
  | opB
  | opN
  | op1
  | opA
  | op0
  | opimm
deriving DecidableEq, Repr

/-- The low bit of a field (R120). -/
def WordField.lo : WordField → Nat
  | .opB => 0
  | .opN => 3
  | .op1 => 6
  | .opA => 9
  | .op0 => 12
  | .opimm => 0

/-- The width of a field (R120). -/
def WordField.width : WordField → Nat
  | .opB => 3
  | .opN => 3
  | .op1 => 3
  | .opA => 3
  | .op0 => 4
  | .opimm => 6

/-- `((1 << width) - 1) << lo` (R120). -/
def WordField.mask (F : WordField) : Word := BitVec.ofNat 16 ((2 ^ F.width - 1) * 2 ^ F.lo)

/-- `setField(w, F, v)`: `w` outside the field, the low bits of `v` inside it; a wider `v` is truncated silently (R121). -/
def setField (w : Word) (F : WordField) (v : Nat) : Word :=
  (w &&& ~~~F.mask) ||| BitVec.ofNat 16 ((v % 2 ^ F.width) * 2 ^ F.lo)

/-- `getField(w, F)`, zero-extended (R122). -/
def getField (w : Word) (F : WordField) : Nat := ((w &&& F.mask) >>> F.lo).toNat

/-- `compose(prior, assignments)`: `setField` applied left to right over the word already in the cell (R123). -/
def compose (prior : Word) : List (WordField × Nat) → Word
  | [] => prior
  | (F, v) :: rest => compose (setField prior F v) rest

/-- The register view's assembly formula (R83). -/
def assembleRegister (op0 : Code) (opA op1 opN opB : Reg) : Word :=
  (op0.setWidth 16 <<< 12) ||| (opA.setWidth 16 <<< 9) ||| (op1.setWidth 16 <<< 6) ||| (opN.setWidth 16 <<< 3)
    ||| opB.setWidth 16

/-- The immediate view's assembly formula (R83). -/
def assembleImmediate (op0 : Code) (opA op1 : Reg) (opimm : BitVec 6) : Word :=
  (op0.setWidth 16 <<< 12) ||| (opA.setWidth 16 <<< 9) ||| (op1.setWidth 16 <<< 6) ||| opimm.setWidth 16

/-! Register indices and names of the target CPU (R26). -/

def Reg.SP : Reg := 0#3
def Reg.R1 : Reg := 1#3
def Reg.R2 : Reg := 2#3
def Reg.R3 : Reg := 3#3
def Reg.R4 : Reg := 4#3
def Reg.BP : Reg := 5#3
def Reg.SR : Reg := 6#3
def Reg.PC : Reg := 7#3

/-! The twelve ALU codes (R27). -/

def Code.ADD : Code := 0#4
def Code.ADC : Code := 1#4
def Code.SUB : Code := 2#4
def Code.SBC : Code := 3#4
def Code.CMP : Code := 4#4
def Code.NEG : Code := 6#4
def Code.XOR : Code := 8#4
def Code.LOAD : Code := 9#4
def Code.OR : Code := 10#4
def Code.AND : Code := 11#4
def Code.TEST : Code := 12#4
def Code.STORE : Code := 13#4

/-! The three condition codes (R28), in the same 4-bit field. -/

def Code.NOT_EQUAL : Code := 4#4
def Code.EQUAL : Code := 5#4
def Code.ALWAYS : Code := 14#4

/-- `op0` of the far jump (R86). -/
def Code.FAR : Code := 15#4

/-- The four values of the operand of `emitAlu` that are no ALU code (R27, R89). -/
def Code.aluReserved (op : Code) : Bool := op == 5#4 || op == 7#4 || op == 14#4 || op == 15#4

/-- The values the source defines as conditions (R28, R92). -/
def Code.conditionDefined (condition : Code) : Bool :=
  condition == Code.NOT_EQUAL || condition == Code.EQUAL || condition == Code.ALWAYS

end Sys2Proof
end

