-- ==== Sys2Proof/Config.lean ====
section
/-!
DEFINITION. What is fixed for one block and changed by no command (R5, R6, R20, R30), and the one free value of the spec
(R24, U12). `Config` is plain data and a field of `State`, so a statement about every state is a statement about every
value of every open parameter.
-/
namespace Sys2Proof

/-- `MEM_WORDS`, the number of cells of Addressable Memory (R5). -/
abbrev memWords : Nat := 131072

/-- `MODE` (R6, R30): `compat` is the original fail-silent behaviour, `strict` the recommended `EncodingError` taxonomy. -/
inductive Mode where
  | compat
  | strict
deriving DecidableEq, Repr

/-- `BYTE_ORDER` (R6, R55): the order of the two bytes of a cell in the serialised image. -/
inductive ByteOrder where
  | little
  | big
deriving DecidableEq, Repr

/-- The configuration of R6 and R20, chosen when the block is instantiated (R30). -/
structure Config where
  /-- `MODE` (R30). -/
  mode : Mode
  /-- `CODE_START`, 0 .. 131071: the cursor after reset (R6, R281). -/
  codeStart : CellAddr
  /-- `SCRATCH_REG`: the register `storeImmediate` names (R6, R143). -/
  scratchReg : Reg
  /-- `BYTE_ORDER` (R55). -/
  byteOrder : ByteOrder
  /-- `PC_INDEX`: the register index written into `opA` by `emitBranch` and `emitGoto` (R6, R26). -/
  pcIndex : Reg
  /-- `RESET_VECTOR_ADDR`: a cell of the target's concern; no rule of the block reads it (R6, R283). -/
  resetVectorAddr : CellAddr
deriving DecidableEq, Repr

/-- The configuration of `State.reset`. DESIGN CHOICE (unsafe where a claim leans on a value; log entries 2, 3, 4, 7):
`MODE`, `CODE_START`, `SCRATCH_REG`, `RESET_VECTOR_ADDR` are open in the spec. `PC_INDEX` = 7 and `BYTE_ORDER` = little
are the values R6 decides (log entries 5, 6). -/
def Config.chosen : Config where
  mode := .compat
  codeStart := 0x8000#17
  scratchReg := 1#3
  byteOrder := .little
  pcIndex := 7#3
  resetVectorAddr := 0#17

/-- What `SAVED` holds after the `n`-th `reset()`: unspecified (R24, R34, U12 "any value"), so nothing is known of it
(safe; log entry 9). -/
opaque Config.freeSaved : Nat → Cursor

end Sys2Proof
end

