-- ==== Sys2Proof/Syntax.lean ====
section
/-!
DEFINITION. The instructions of spec/opcode_table.json, one constructor per row, with the operands of the command that
emits the row (R8, R96: operand order as in the source).
-/
namespace Sys2Proof

/-- One row of the opcode table each, as the call that emits it (R86, R88, R96). -/
inductive Instr where
  /-- SET, `emitSet(reg, value)` (R140). -/
  | set (reg : Reg) (value : Word)
  /-- LOAD, `emitLoad(reg, address)` (R141). -/
  | load (reg : Reg) (address : Addr)
  /-- STORE, `emitStore(address, reg)` (R142). -/
  | store (address : Addr) (reg : Reg)
  /-- ALU.ADD, `emitAlu(ADD, dst, src)` (R162). -/
  | aluAdd (dst src : Reg)
  /-- ALU.ADC (R163). -/
  | aluAdc (dst src : Reg)
  /-- ALU.SUB (R164). -/
  | aluSub (dst src : Reg)
  /-- ALU.SBC (R165). -/
  | aluSbc (dst src : Reg)
  /-- ALU.CMP (R166). -/
  | aluCmp (dst src : Reg)
  /-- ALU.NEG (R167). -/
  | aluNeg (dst src : Reg)
  /-- ALU.XOR (R168). -/
  | aluXor (dst src : Reg)
  /-- ALU.LOAD, the register-to-register form (R169). -/
  | aluLoad (dst src : Reg)
  /-- ALU.OR (R170). -/
  | aluOr (dst src : Reg)
  /-- ALU.AND (R171). -/
  | aluAnd (dst src : Reg)
  /-- ALU.TEST (R172). -/
  | aluTest (dst src : Reg)
  /-- ALU.STORE, the register-to-register form (R173). -/
  | aluStore (dst src : Reg)
  /-- BNE, `emitBranch(NOT_EQUAL, targetAddress)` (R193). -/
  | bne (target : Addr)
  /-- BEQ, `emitBranch(EQUAL, targetAddress)` (R194). -/
  | beq (target : Addr)
  /-- BRA, `emitBranch(ALWAYS, targetAddress)` (R195). -/
  | bra (target : Addr)
  /-- GOTO, `emitGoto(targetAddress)` (R210). -/
  | goto (target : Addr)
deriving DecidableEq, Repr

end Sys2Proof
end

