-- ==== Sys2Proof/WellFormed.lean ====
section
/-!
DEFINITION. When an instruction's operands fit its encoding without loss at a given cursor position: the thresholds that
STRICT checks (R251, decision D10) and the ranges of the source's round-trip properties (R141, R191, R211). Register
operands are never out of range (R252).
-/
namespace Sys2Proof

/-- The literal word of LOAD and STORE holds `address` exactly (R141, R142). -/
def Addr.fitsLiteral (address : Addr) : Bool := decide (address.toNat < 65536)

/-- The branch reaches `target` from `pos`: `|target - (pos + 1)| <= 63` (R191). -/
def Addr.inBranchRange (pos : Cursor) (target : Addr) : Bool :=
  decide (target.toNat ≤ pos.toNat + 1 + 63 ∧ pos.toNat + 1 ≤ target.toNat + 63)

/-- The six bits of `opimm` hold the high part of `target` (R210). -/
def Addr.fitsGoto (target : Addr) : Bool := decide (target.toNat < 4194304)

/-- The operands of `i` fit the words written at `pos`. -/
def Instr.wellFormed (pos : Cursor) : Instr → Bool
  | .set _ _ => true
  | .load _ address => Addr.fitsLiteral address
  | .store address _ => Addr.fitsLiteral address
  | .aluAdd _ _ => true
  | .aluAdc _ _ => true
  | .aluSub _ _ => true
  | .aluSbc _ _ => true
  | .aluCmp _ _ => true
  | .aluNeg _ _ => true
  | .aluXor _ _ => true
  | .aluLoad _ _ => true
  | .aluOr _ _ => true
  | .aluAnd _ _ => true
  | .aluTest _ _ => true
  | .aluStore _ _ => true
  | .bne target => Addr.inBranchRange pos target
  | .beq target => Addr.inBranchRange pos target
  | .bra target => Addr.inBranchRange pos target
  | .goto target => Addr.fitsGoto target

end Sys2Proof
end

