-- ==== Sys2Proof/Decode.lean ====
section
/-!
DEFINITION. Decoding and encoding. The block itself never decodes (R2); the spec gives these functions for checking
(R93, R95, R196, R211), and they take the POSITION of the word, because a branch word denotes a target relative to it
(R23, R196). The decoder is the form recogniser R95 with the literal word and the target put back; the encoder is the table
of R86 with the immediates of R87, through the assembly formula R83, and does not call the compositor.
-/
namespace Sys2Proof

/-- What the form recogniser answers (R95). -/
inductive Form where
  | alu (op : Code) (dst src : Reg)
  | set (reg : Reg)
  | load (reg : Reg)
  | store (reg : Reg)
  | branch (cond : Code) (back : Bool) (mag : BitVec 6)
  | goto (high : BitVec 6)
  | notEmitted
deriving DecidableEq, Repr

/-- Why the decoder rejects a list of words or bytes. -/
inductive DecodeError where
  /-- No word to decode. -/
  | noWord
  /-- The word is the first of a 2-word form and no literal word follows. -/
  | missingLiteral
  /-- R95 "NotEmitted": an `op1` or `opN` value with no form, or fields that no command writes together. -/
  | notEmitted
  /-- An ALU word with one of the codes 5, 7, 14, 15 (R89): no row of the opcode table. -/
  | reservedAluCode (op : Code)
  /-- A branch word with a condition outside 4, 5, 14 (R92): no row of the opcode table. -/
  | undefinedCondition (cond : Code)
  /-- A branch word whose target would lie below address 0 at this position: no call emits it there (R190). -/
  | targetBelowZero
  /-- A byte list of odd length is no list of words (R55). -/
  | oddByte
deriving DecidableEq, Repr

/-- The form recogniser (R95), with `PC_INDEX` as the parameter R6 makes it. -/
def formOf (pcIndex : Reg) (w : Word) : Form :=
  let op0 : Code := BitVec.ofNat 4 (getField w .op0)
  let opA : Reg := BitVec.ofNat 3 (getField w .opA)
  let opB : Reg := BitVec.ofNat 3 (getField w .opB)
  let opimm : BitVec 6 := BitVec.ofNat 6 (getField w .opimm)
  if getField w .op1 = 4 then
    if getField w .opN = 0 then .alu op0 opA opB
    else if getField w .opN = 1 ∧ op0 = 9#4 ∧ opA = opB then .set opB
    else if getField w .opN = 2 ∧ op0 = 9#4 ∧ opA = opB then .load opB
    else if getField w .opN = 3 ∧ op0 = 13#4 ∧ opA = opB then .store opB
    else .notEmitted
  else if (getField w .op1 = 0 ∨ getField w .op1 = 1) ∧ opA = pcIndex then
    .branch op0 (getField w .op1 == 1) opimm
  else if getField w .op1 = 2 ∧ opA = pcIndex ∧ op0 = 15#4 then .goto opimm
  else .notEmitted

/-- `length(w)`, in words, for words written by the defined commands (R93). -/
def lengthOf (w : Word) : Nat :=
  if getField w .op1 = 4 ∧ (getField w .opN = 1 ∨ getField w .opN = 2 ∨ getField w .opN = 3) then 2
  else if getField w .op0 = 15 ∧ getField w .op1 = 2 then 2
  else 1

/-- The target that a branch word at `pos` with these fields denotes (R196). -/
def branchTarget (pos : Cursor) (back : Bool) (mag : BitVec 6) : Int :=
  if back then (pos.toNat : Int) + 1 - mag.toNat else (pos.toNat : Int) + 1 + mag.toNat

/-- The target that a GOTO with this high part and literal word denotes (R211). -/
def gotoTarget (high : BitVec 6) (literal : Word) : Addr :=
  (high.setWidth 32 <<< 16) ||| literal.setWidth 32

/-- The row of the opcode table for an ALU code, where there is one (R27). -/
def aluInstr? (op : Code) (dst src : Reg) : Option Instr :=
  match op.toNat with
  | 0 => some (.aluAdd dst src)
  | 1 => some (.aluAdc dst src)
  | 2 => some (.aluSub dst src)
  | 3 => some (.aluSbc dst src)
  | 4 => some (.aluCmp dst src)
  | 6 => some (.aluNeg dst src)
  | 8 => some (.aluXor dst src)
  | 9 => some (.aluLoad dst src)
  | 10 => some (.aluOr dst src)
  | 11 => some (.aluAnd dst src)
  | 12 => some (.aluTest dst src)
  | 13 => some (.aluStore dst src)
  | _ => none

/-- The row of the opcode table for a condition code, where there is one (R28). -/
def branchInstr? (condition : Code) (target : Addr) : Option Instr :=
  match condition.toNat with
  | 4 => some (.bne target)
  | 5 => some (.beq target)
  | 14 => some (.bra target)
  | _ => none

/-- An instruction read off the front of a word list, and the words after it. -/
abbrev Decoded := Except DecodeError (Instr × List Word)

/-- Take the literal word of a 2-word form (R80). -/
def withLiteral (rest : List Word) (make : Word → Instr) : Decoded :=
  match rest with
  | [] => .error .missingLiteral
  | literal :: rest' => .ok (make literal, rest')

/-- The instruction at the front of `words`, whose first word stands at cell `pos`. A "backward by zero" branch word
(R191) denotes the word after it, as R196 computes (DEDUCED, log entry 14). -/
def decodeAt (pcIndex : Reg) (pos : Cursor) (words : List Word) : Decoded :=
  match words with
  | [] => .error .noWord
  | w :: rest =>
    match formOf pcIndex w with
    | .set reg => withLiteral rest (fun literal => .set reg literal)
    | .load reg => withLiteral rest (fun literal => .load reg (literal.setWidth 32))
    | .store reg => withLiteral rest (fun literal => .store (literal.setWidth 32) reg)
    | .alu op dst src =>
      match aluInstr? op dst src with
      | some i => .ok (i, rest)
      | none => .error (.reservedAluCode op)
    | .branch cond back mag =>
      match branchInstr? cond (BitVec.ofInt 32 (branchTarget pos back mag)) with
      | some i => if branchTarget pos back mag < 0 then .error .targetBelowZero else .ok (i, rest)
      | none => .error (.undefinedCondition cond)
    | .goto high => withLiteral rest (fun literal => .goto (gotoTarget high literal))
    | .notEmitted => .error .notEmitted

/-- The cells that a byte sequence of the image holds (R55, R244). -/
def wordsOfBytes (order : ByteOrder) : List Byte → Except DecodeError (List Word)
  | [] => .ok []
  | [_] => .error .oddByte
  | b0 :: b1 :: rest =>
    match wordsOfBytes order rest with
    | .error e => .error e
    | .ok ws => .ok ((match order with | .little => b1 ++ b0 | .big => b0 ++ b1) :: ws)

/-- Decoding bytes of a serialised image, total on any bytes. -/
def decodeBytes (order : ByteOrder) (pcIndex : Reg) (pos : Cursor) (bytes : List Byte) : Decoded :=
  match wordsOfBytes order bytes with
  | .error e => .error e
  | .ok ws => decodeAt pcIndex pos ws

/-! ### The encoder -/

/-- The ALU form of R86: `op1` = 4, `opN` = 0. -/
def encodeAlu (op : Code) (dst src : Reg) : List Word := [assembleRegister op dst 4#3 0#3 src]

/-- The BRANCH form of R86 with the immediate of R87: direction flag and magnitude modulo 64. -/
def encodeBranch (pcIndex : Reg) (pos : Cursor) (condition : Code) (target : Addr) : List Word :=
  if target.toNat < pos.toNat + 1 then
    [assembleImmediate condition pcIndex 1#3 (BitVec.ofNat 6 (pos.toNat + 1 - target.toNat))]
  else
    [assembleImmediate condition pcIndex 0#3 (BitVec.ofNat 6 (target.toNat - (pos.toNat + 1)))]

/-- The words of an instruction whose first word stands at `pos` (R86, R87). -/
def encodeAt (pcIndex : Reg) (pos : Cursor) : Instr → List Word
  | .set reg value => [assembleRegister 9#4 reg 4#3 1#3 reg, value]
  | .load reg address => [assembleRegister 9#4 reg 4#3 2#3 reg, address.setWidth 16]
  | .store address reg => [assembleRegister 13#4 reg 4#3 3#3 reg, address.setWidth 16]
  | .aluAdd dst src => encodeAlu 0#4 dst src
  | .aluAdc dst src => encodeAlu 1#4 dst src
  | .aluSub dst src => encodeAlu 2#4 dst src
  | .aluSbc dst src => encodeAlu 3#4 dst src
  | .aluCmp dst src => encodeAlu 4#4 dst src
  | .aluNeg dst src => encodeAlu 6#4 dst src
  | .aluXor dst src => encodeAlu 8#4 dst src
  | .aluLoad dst src => encodeAlu 9#4 dst src
  | .aluOr dst src => encodeAlu 10#4 dst src
  | .aluAnd dst src => encodeAlu 11#4 dst src
  | .aluTest dst src => encodeAlu 12#4 dst src
  | .aluStore dst src => encodeAlu 13#4 dst src
  | .bne target => encodeBranch pcIndex pos 4#4 target
  | .beq target => encodeBranch pcIndex pos 5#4 target
  | .bra target => encodeBranch pcIndex pos 14#4 target
  | .goto target =>
    [assembleImmediate 15#4 pcIndex 2#3 ((target >>> 16).setWidth 6), target.setWidth 16]

/-- How many words a row has (`words` of the opcode table, R80, R86). -/
def Instr.wordCount : Instr → Nat
  | .set _ _ => 2
  | .load _ _ => 2
  | .store _ _ => 2
  | .aluAdd _ _ => 1
  | .aluAdc _ _ => 1
  | .aluSub _ _ => 1
  | .aluSbc _ _ => 1
  | .aluCmp _ _ => 1
  | .aluNeg _ _ => 1
  | .aluXor _ _ => 1
  | .aluLoad _ _ => 1
  | .aluOr _ _ => 1
  | .aluAnd _ _ => 1
  | .aluTest _ _ => 1
  | .aluStore _ _ => 1
  | .bne _ => 1
  | .beq _ => 1
  | .bra _ => 1
  | .goto _ => 2

/-! ### The opcode table as data (R98) -/

/-- A row's fixed bits: a word belongs to the row when `w & mask = pattern`. -/
structure Row where
  mnemonic : String
  pattern : Word
  mask : Word
deriving DecidableEq, Repr

/-- The `match` and `mask` of spec/opcode_table.json. -/
def opcodeRows : List Row :=
  [⟨"SET", 0x9108#16, 0xF1F8#16⟩, ⟨"LOAD", 0x9110#16, 0xF1F8#16⟩, ⟨"STORE", 0xD118#16, 0xF1F8#16⟩,
   ⟨"ALU.ADD", 0x0100#16, 0xF1F8#16⟩, ⟨"ALU.ADC", 0x1100#16, 0xF1F8#16⟩, ⟨"ALU.SUB", 0x2100#16, 0xF1F8#16⟩,
   ⟨"ALU.SBC", 0x3100#16, 0xF1F8#16⟩, ⟨"ALU.CMP", 0x4100#16, 0xF1F8#16⟩, ⟨"ALU.NEG", 0x6100#16, 0xF1F8#16⟩,
   ⟨"ALU.XOR", 0x8100#16, 0xF1F8#16⟩] ++
  [⟨"ALU.LOAD", 0x9100#16, 0xF1F8#16⟩, ⟨"ALU.OR", 0xA100#16, 0xF1F8#16⟩, ⟨"ALU.AND", 0xB100#16, 0xF1F8#16⟩,
   ⟨"ALU.TEST", 0xC100#16, 0xF1F8#16⟩, ⟨"ALU.STORE", 0xD100#16, 0xF1F8#16⟩, ⟨"BNE", 0x4E00#16, 0xFF80#16⟩,
   ⟨"BEQ", 0x5E00#16, 0xFF80#16⟩, ⟨"BRA", 0xEE00#16, 0xFF80#16⟩, ⟨"GOTO", 0xFE80#16, 0xFFC0#16⟩]

/-- The mnemonic of an instruction's row. -/
def Instr.mnemonic : Instr → String
  | .set _ _ => "SET"
  | .load _ _ => "LOAD"
  | .store _ _ => "STORE"
  | .aluAdd _ _ => "ALU.ADD"
  | .aluAdc _ _ => "ALU.ADC"
  | .aluSub _ _ => "ALU.SUB"
  | .aluSbc _ _ => "ALU.SBC"
  | .aluCmp _ _ => "ALU.CMP"
  | .aluNeg _ _ => "ALU.NEG"
  | .aluXor _ _ => "ALU.XOR"
  | .aluLoad _ _ => "ALU.LOAD"
  | .aluOr _ _ => "ALU.OR"
  | .aluAnd _ _ => "ALU.AND"
  | .aluTest _ _ => "ALU.TEST"
  | .aluStore _ _ => "ALU.STORE"
  | .bne _ => "BNE"
  | .beq _ => "BEQ"
  | .bra _ => "BRA"
  | .goto _ => "GOTO"

/-- Whether a word has the fixed bits of the row with this mnemonic. -/
def Word.hasRow (w : Word) (mnemonic : String) : Bool :=
  opcodeRows.any (fun r => r.mnemonic == mnemonic && w &&& r.mask == r.pattern)

/-! ### Words as the opcode table numbers them -/

/-- The one or two words whose bits are the low `nbits` bits of `w`, the first word in bits 15 .. 0. -/
def tableWords (nbits w : Nat) : List Word :=
  [BitVec.ofNat 16 (w % 2 ^ nbits), BitVec.ofNat 16 (w % 2 ^ nbits / 65536)]

/-- The instruction those words are at position `pos`. -/
def decodeTableWordAt (pcIndex : Reg) (pos : Cursor) (nbits w : Nat) : Option Instr :=
  match decodeAt pcIndex pos (tableWords nbits w) with
  | .ok (i, _) => some i
  | .error _ => none

/-- The instruction an opcode-table word is where the first word after reset is emitted: at `CODE_START` of the chosen
configuration (DESIGN CHOICE, log entry 14: the table's numbering names no position, and a branch needs one). -/
def decodeTableWord (nbits w : Nat) : Option Instr :=
  decodeTableWordAt Config.chosen.pcIndex (Config.chosen.codeStart.setWidth 18) nbits w

end Sys2Proof
end

