-- ==== Sys2Proof/Machine/State.lean ====
section
/-!
DEFINITION. The state of the block (R20), the commands of its caller (R8), the results they return (R257), the reasons a
command stops, and the state after reset (R34).
-/
namespace Sys2Proof.Machine

/-- The three ways to misuse the patch commands (R222 to R224). -/
inductive ProtocolMisuse where
  /-- `patchBegin` while a relocation is outstanding (R222). -/
  | nested
  /-- `patchSeek` outside a patch pass (R223). -/
  | seekOutsidePatch
  /-- `patchEnd` outside a patch pass (R224). -/
  | endOutsidePatch
deriving DecidableEq, Repr

/-- The model faults: outcomes the source leaves without meaning (R258). The command writes nothing; `step` keeps the fault
in `State.faulted`, and any later command but `reset()` stops with the same fault (log entry 10). -/
inductive Fault where
  /-- Raised by the space check `need` in `MODE = COMPAT` (R254, U6). Safe: the original wrote outside its array. -/
  | overrun
  /-- Raised by `patchBegin`, `patchSeek`, `patchEnd` in both modes (R259, U7). Safe: the source calls the use unsupported. -/
  | protocolFault (misuse : ProtocolMisuse)
deriving DecidableEq, Repr

/-- Why an instruction has no meaning in the model. -/
inductive Refusal where
  /-- Raised by an arm of `exec` for an instruction without a meaning; no arm raises it. Safe: the run stops. -/
  | notModelled (mnemonic : String)
deriving DecidableEq, Repr

/-- The three kinds of `EncodingError` (R251). -/
inductive ErrorKind where
  | outOfRange
  | reservedOpcode
  | bufferOverrun
deriving DecidableEq, Repr

/-- `Error(kind, info)`, with the `info` of R251. -/
structure EncodingError where
  kind : ErrorKind
  info : Int
deriving DecidableEq, Repr

/-- What a command answers (R257). -/
inductive Answer where
  /-- `Ok` without a value. -/
  | ok
  /-- `Ok` of `getCursor` (R220). -/
  | position (c : Cursor)
  /-- `Ok` of `peek` (R242). -/
  | cell (w : Word)
  /-- `Ok` of `serialize` (R244). -/
  | image (bytes : List Byte)
  /-- An `EncodingError` (R256). -/
  | error (e : EncodingError)
  /-- A model fault (R258). -/
  | modelFault (f : Fault)
deriving DecidableEq, Repr

/-- The result of a command: its answer, with `FAULT_CODE` and `FAULT_POS` as the caller reads them with it (R29, R257). -/
structure Result where
  answer : Answer
  faultCode : BitVec 2
  faultPos : Cursor
deriving DecidableEq, Repr

/-- The complete command set of the block (R8). -/
inductive Command where
  | emitSet (reg : Reg) (value : Word)
  | emitLoad (reg : Reg) (address : Addr)
  | emitStore (address : Addr) (reg : Reg)
  | storeImmediate (address : Addr) (value : Word)
  | emitAlu (op : Code) (dst src : Reg)
  | emitBranch (condition : Code) (target : Addr)
  | emitGoto (target : Addr)
  | getCursor
  | patchBegin
  | patchSeek (pos : CellAddr)
  | patchEnd
  | reset
  | poke (addr : CellAddr) (v : Word)
  | peek (addr : CellAddr)
  | serialize
deriving DecidableEq, Repr

/-- A cell of Addressable Memory and its content. The cell is the smallest addressable unit (R51; log entry 13). -/
abbrev Cell := Nat × Word

/-- Addressable Memory (R21): the cells that do not hold 0x0000, at strictly rising addresses. -/
abbrev Memory := List Cell

/-- The state of the block (R20) with its configuration, the caller's commands and results, and the model's counter of free
values. -/
structure State where
  /-- `MODE`, `CODE_START`, `SCRATCH_REG`, `BYTE_ORDER`, `PC_INDEX`, `RESET_VECTOR_ADDR` (R6, R20). -/
  cfg : Config
  /-- `Mem` (R21). -/
  mem : Memory
  /-- `cursor` (R22). -/
  cursor : Cursor
  /-- `SAVED` (R24). -/
  saved : Cursor
  /-- `ACTIVE` (R24). -/
  active : Bool
  /-- `FAULT_CODE` (R29): 0 none, 1 OutOfRange, 2 ReservedOpcode, 3 BufferOverrun. -/
  faultCode : BitVec 2
  /-- `FAULT_POS` (R29). -/
  faultPos : Cursor
  /-- The model fault the block is in (R258, D27). -/
  faulted : Option Fault
  /-- The commands the caller has not yet issued, the next one first (R7; log entry 1). -/
  pending : List Command
  /-- The results returned to the caller, the newest first (R245, R257; log entry 12). -/
  results : List Result
  /-- The model's own: how many free values have been drawn (log entry 9). -/
  freeCount : Nat
deriving DecidableEq, Repr

/-- The three outcomes of a command. -/
abbrev Out := Host.Outcome State Fault Refusal

/-- Power-on of a block configured as `cfg` (R34, R240, R280): memory zero, the cursor at `CODE_START`, no relocation, no
error, no fault, nothing issued. `SAVED` is unspecified in the spec; 0 here (DESIGN CHOICE, unsafe, log entry 8). -/
def State.powerOn (cfg : Config) : State where
  cfg := cfg
  mem := []
  cursor := cfg.codeStart.setWidth 18
  saved := 0#18
  active := false
  faultCode := 0#2
  faultPos := 0#18
  faulted := none
  pending := []
  results := []
  freeCount := 0

/-- The machine right after reset, in the chosen configuration (log entries 2 to 8). -/
def State.reset : State := State.powerOn Config.chosen

end Sys2Proof.Machine
end

