-- ==== Sys2Proof/Machine/Commands.lean ====
section
/-!
DEFINITION. Which command emits which row of the opcode table (R8, R96), and how an opcode-table word becomes the next
command (log entries 1, 14, 16).
-/
namespace Sys2Proof.Machine

/-- The call that emits a row (R96: the operand orders of the source). -/
def commandOf : Instr → Command
  | .set reg value => .emitSet reg value
  | .load reg address => .emitLoad reg address
  | .store address reg => .emitStore address reg
  | .aluAdd dst src => .emitAlu Code.ADD dst src
  | .aluAdc dst src => .emitAlu Code.ADC dst src
  | .aluSub dst src => .emitAlu Code.SUB dst src
  | .aluSbc dst src => .emitAlu Code.SBC dst src
  | .aluCmp dst src => .emitAlu Code.CMP dst src
  | .aluNeg dst src => .emitAlu Code.NEG dst src
  | .aluXor dst src => .emitAlu Code.XOR dst src
  | .aluLoad dst src => .emitAlu Code.LOAD dst src
  | .aluOr dst src => .emitAlu Code.OR dst src
  | .aluAnd dst src => .emitAlu Code.AND dst src
  | .aluTest dst src => .emitAlu Code.TEST dst src
  | .aluStore dst src => .emitAlu Code.STORE dst src
  | .bne target => .emitBranch Code.NOT_EQUAL target
  | .beq target => .emitBranch Code.EQUAL target
  | .bra target => .emitBranch Code.ALWAYS target
  | .goto target => .emitGoto target

/-- The caller issues `c` next. -/
def State.issue (c : Command) (s : State) : State := { s with pending := c :: s.pending }

/-- The caller's next command is the one that emits the opcode-table word `w` at the cursor; a word that is no row's there
is no command, and the state is left as it is (log entry 16). -/
def issueTableWord (s : State) (nbits w : Nat) : State :=
  match decodeTableWordAt s.cfg.pcIndex s.cursor nbits w with
  | some i => s.issue (commandOf i)
  | none => s

end Sys2Proof.Machine
end

