-- ==== Sys2Proof/Machine/Flags.lean ====
section
/-!
DEFINITION. The block's own status bits (R13 "flags written"): the first-error record `FAULT_CODE` / `FAULT_POS` (R29, R256),
the relocation flag `ACTIVE` with `SAVED` (R24), the kept model fault (R258), and the result that carries the status to the
caller (R257).
-/
namespace Sys2Proof.Machine

/-- The numeric codes of the error kinds (R29, R251). -/
def ErrorKind.code : ErrorKind → BitVec 2
  | .outOfRange => 1#2
  | .reservedOpcode => 2#2
  | .bufferOverrun => 3#2

/-- The sticky first-error record: written only while `FAULT_CODE = 0` (R29, R256). -/
def State.recordError (kind : ErrorKind) (s : State) : State :=
  { s with
    faultCode := if s.faultCode = 0#2 then kind.code else s.faultCode
    faultPos := if s.faultCode = 0#2 then s.cursor else s.faultPos }

/-- Return an answer to the caller, with `FAULT_CODE` and `FAULT_POS` as they now are (R257). -/
def State.answer (a : Answer) (s : State) : State :=
  { s with results := ⟨a, s.faultCode, s.faultPos⟩ :: s.results }

/-- Open a relocation: `SAVED <- cursor; ACTIVE <- 1` (R222). -/
def State.openPatch (s : State) : State := { s with saved := s.cursor, active := true }

/-- Close a relocation: `cursor <- SAVED; ACTIVE <- 0`; `SAVED` keeps its value (R224). -/
def State.closePatch (s : State) : State := { s with cursor := s.saved, active := false }

/-- Relocate the cursor (R223). -/
def State.seek (pos : CellAddr) (s : State) : State := { s with cursor := pos.setWidth 18 }

/-- The faulted state of R258: the fault is kept, and reported to the caller. -/
def State.enterFaulted (f : Fault) (s : State) : State := State.answer (.modelFault f) { s with faulted := some f }

end Sys2Proof.Machine
end

