-- ==== Sys2Proof/Machine/Operands.lean ====
section
/-!
DEFINITION. What the commands compute from their operands: the branch displacement (R190), the literal word of LOAD and
STORE (R141), the two parts of a far target (R210), and the operand checks of `MODE = STRICT` (R251, R252).
-/
namespace Sys2Proof.Machine

/-- `pc`, the address of the word following the branch: `cursor + 1` as an integer (R190 step 1). -/
def branchPc (cursor : Cursor) : Nat := cursor.toNat + 1

/-- `delta = targetAddress - pc`, a mathematical integer (R190 step 2, D24). -/
def branchDelta (cursor : Cursor) (target : Addr) : Int := (target.toNat : Int) - (branchPc cursor : Int)

/-- `back = 1 if targetAddress < pc else 0`, the value written to the whole field `op1` (R190 step 3, D3). -/
def branchBack (cursor : Cursor) (target : Addr) : Nat := if target.toNat < branchPc cursor then 1 else 0

/-- `mag = |delta|` (R190 step 4). -/
def branchMag (cursor : Cursor) (target : Addr) : Nat := (branchDelta cursor target).natAbs

/-- `address mod 65536` (R141, R142). -/
def literalOf (address : Addr) : Word := BitVec.ofNat 16 (address.toNat % 65536)

/-- `high = targetAddress >> 16` (R210). -/
def gotoHigh (target : Addr) : Nat := target.toNat / 65536

/-- `low = targetAddress mod 65536` (R210). -/
def gotoLow (target : Addr) : Word := BitVec.ofNat 16 (target.toNat % 65536)

/-- The literal cell cannot hold the address: `OutOfRange(address)` (R141, R251). -/
def addressError? (address : Addr) : Option EncodingError :=
  if 65536 ≤ address.toNat then some ⟨.outOfRange, address.toNat⟩ else none

/-- `opimm` cannot hold the high part: `OutOfRange(targetAddress)` (R210, R251). -/
def gotoError? (target : Addr) : Option EncodingError :=
  if 63 < gotoHigh target then some ⟨.outOfRange, target.toNat⟩ else none

/-- `op` is none of the twelve ALU codes: `ReservedOpcode(op)` (R161, R251). -/
def aluError? (op : Code) : Option EncodingError :=
  if Code.aluReserved op then some ⟨.reservedOpcode, op.toNat⟩ else none

/-- The strict checks of a branch in their order: the condition, then the range (R192, R255). -/
def branchError? (cursor : Cursor) (condition : Code) (target : Addr) : Option EncodingError :=
  if !Code.conditionDefined condition then some ⟨.reservedOpcode, condition.toNat⟩
  else if 63 < branchMag cursor target then some ⟨.outOfRange, branchDelta cursor target⟩
  else none

end Sys2Proof.Machine
end

