-- ==== Sys2Proof/Machine/Ops.lean ====
section
/-!
DEFINITION. The shared operations: Addressable Memory (R11, R21), the error entry (R256), the space check (R254), the
emission helpers `putWord` and `putInsn` (R12), and what a step does with a command's outcome (R258). An operation that may
end the command takes the rest of the command as its last argument.
-/
namespace Sys2Proof.Machine

/-! ### Addressable Memory -/

/-- What a cell that nothing has written reads as: zero (R21, R34). -/
def Memory.unlisted : Word := 0#16

/-- `MemRead(a, 1)` (R11, R53). -/
def Memory.read : Memory → Nat → Word
  | [], _ => Memory.unlisted
  | (b, w) :: rest, a => if a = b then w else Memory.read rest a

/-- `MemWrite(a, 1, v)` (R11, R53), keeping the canonical form: writing zero removes the entry. -/
def Memory.write : Memory → Nat → Word → Memory
  | [], a, v => if v = Memory.unlisted then [] else [(a, v)]
  | (b, w) :: rest, a, v =>
    if a < b then (if v = Memory.unlisted then (b, w) :: rest else (a, v) :: (b, w) :: rest)
    else if a = b then (if v = Memory.unlisted then rest else (a, v) :: rest)
    else (b, w) :: Memory.write rest a v

/-- Every listed address is at least `low` and inside the address space, addresses rise strictly, and no listed cell holds
what an unlisted one reads as. -/
def Memory.wfFrom : Nat → Memory → Bool
  | _, [] => true
  | low, (a, w) :: rest => decide (low ≤ a) && decide (a < memWords) && decide (w ≠ Memory.unlisted) && Memory.wfFrom (a + 1) rest

/-- The canonical form of memory. -/
def Memory.wf (m : Memory) : Bool := Memory.wfFrom 0 m

/-- `MemWrite(a, 1, v)` on the block's memory; nothing else changes (R11, R241). -/
def State.setCell (a : Nat) (v : Word) (s : State) : State := { s with mem := Memory.write s.mem a v }

/-- The two bytes of a cell in the serialised image (R55, R244). -/
def cellBytes (order : ByteOrder) (w : Word) : List Byte :=
  match order with
  | .little => [w.setWidth 8, (w >>> 8).setWidth 8]
  | .big => [(w >>> 8).setWidth 8, w.setWidth 8]

/-- The image: the bytes of every cell, cell 0 first (R244). -/
def imageBytes (order : ByteOrder) (m : Memory) : List Byte :=
  (List.range memWords).flatMap (fun a => cellBytes order (Memory.read m a))

/-! ### Ends of a command -/

/-- `Ok` with no value (R257). -/
def done (s : State) : Out := .next (s.answer .ok)

/-- Error entry, `raise K(info)` (R256): the command ends, only the first-error record changes, and the error is its
result. Control goes nowhere; the next command executes normally. -/
def raise (e : EncodingError) (s : State) : Out := .next ((s.recordError e.kind).answer (.error e))

/-- What happens where a command's words do not fit (R254): `BufferOverrun` in STRICT, the model fault `Overrun` in COMPAT. -/
def overrun (s : State) : Out :=
  match s.cfg.mode with
  | .strict => raise ⟨.bufferOverrun, s.cursor.toNat⟩ s
  | .compat => .fault .overrun

/-! ### Guards of a command -/

/-- After a model fault no command but `reset()` has a defined effect; the fault is kept (R258, D27). -/
def whenLive (s : State) (k : State → Out) : Out :=
  match s.faulted with
  | some f => .fault f
  | none => k s

/-- An operand check: made in STRICT only (R251, R253). -/
def strictCheck (e? : Option EncodingError) (s : State) (k : State → Out) : Out :=
  match s.cfg.mode, e? with
  | .strict, some e => raise e s
  | .strict, none => k s
  | .compat, _ => k s

/-- The space check `need(n)`, made once for the whole command before any write (R254). -/
def need (n : Nat) (s : State) (k : State → Out) : Out :=
  if memWords < s.cursor.toNat + n then overrun s else k s

/-! ### Emission -/

/-- `MemWrite(cursor, 1, v); cursor <- cursor + 1` (R12). -/
def State.put (v : Word) (s : State) : State :=
  { s with mem := Memory.write s.mem s.cursor.toNat v, cursor := s.cursor + 1#18 }

/-- `putWord(v)` (R12). -/
def putWord (v : Word) (s : State) (k : State → Out) : Out :=
  if memWords ≤ s.cursor.toNat then overrun s else k (s.put v)

/-- `putInsn(assignments)`: the instruction word is composed over the prior content of the cell at the cursor (R12). -/
def putInsn (assignments : List (WordField × Nat)) (s : State) (k : State → Out) : Out :=
  putWord (compose (Memory.read s.mem s.cursor.toNat) assignments) s k

/-! ### Issuing a command -/

/-- The next command of the caller, and the state once it is issued (R7). -/
def nextCommand (s : State) : Option (Command × State) :=
  match s.pending with
  | [] => none
  | c :: rest => some (c, { s with pending := rest })

/-- What a step makes of a command's outcome: a model fault puts a live block into the faulted state (R258); a block that
is already faulted stops with its fault. -/
def settle (s : State) (o : Out) : Out :=
  match o with
  | .next t => .next t
  | .fault f => if s.faulted.isSome then .fault f else .next (s.enterFaulted f)
  | .refused r => .refused r

end Sys2Proof.Machine
end

