-- ==== Sys2Proof/Machine/Alu.lean ====
section
/-!
DEFINITION. `emitAlu` and its twelve operations (spec/42_alu.md).
-/
namespace Sys2Proof.Machine

/-- `emitAlu(op, dst, src)` for any 4-bit `op` (R160): a reserved code is written as given in COMPAT and raises
`ReservedOpcode` in STRICT (R89, R161). -/
def emitAlu (op : Code) (dst src : Reg) (s : State) : Out :=
  whenLive s fun s => strictCheck (aluError? op) s fun s => need 1 s fun s =>
  putInsn [(.opA, dst.toNat), (.opB, src.toNat), (.opN, 0), (.op1, 4), (.op0, op.toNat)] s done

/-- `emitAlu(ADD, dst, src)` (R162). -/
def execAluAdd (dst src : Reg) (s : State) : Out := emitAlu Code.ADD dst src s

/-- `emitAlu(ADC, dst, src)` (R163). -/
def execAluAdc (dst src : Reg) (s : State) : Out := emitAlu Code.ADC dst src s

/-- `emitAlu(SUB, dst, src)` (R164). -/
def execAluSub (dst src : Reg) (s : State) : Out := emitAlu Code.SUB dst src s

/-- `emitAlu(SBC, dst, src)` (R165). -/
def execAluSbc (dst src : Reg) (s : State) : Out := emitAlu Code.SBC dst src s

/-- `emitAlu(CMP, dst, src)` (R166). -/
def execAluCmp (dst src : Reg) (s : State) : Out := emitAlu Code.CMP dst src s

/-- `emitAlu(NEG, dst, src)` (R167). -/
def execAluNeg (dst src : Reg) (s : State) : Out := emitAlu Code.NEG dst src s

/-- `emitAlu(XOR, dst, src)` (R168). -/
def execAluXor (dst src : Reg) (s : State) : Out := emitAlu Code.XOR dst src s

/-- `emitAlu(LOAD, dst, src)` (R169). -/
def execAluLoad (dst src : Reg) (s : State) : Out := emitAlu Code.LOAD dst src s

/-- `emitAlu(OR, dst, src)` (R170). -/
def execAluOr (dst src : Reg) (s : State) : Out := emitAlu Code.OR dst src s

/-- `emitAlu(AND, dst, src)` (R171). -/
def execAluAnd (dst src : Reg) (s : State) : Out := emitAlu Code.AND dst src s

/-- `emitAlu(TEST, dst, src)` (R172). -/
def execAluTest (dst src : Reg) (s : State) : Out := emitAlu Code.TEST dst src s

/-- `emitAlu(STORE, dst, src)` (R173). -/
def execAluStore (dst src : Reg) (s : State) : Out := emitAlu Code.STORE dst src s

end Sys2Proof.Machine
end

