-- ==== Sys2Proof/Machine/Branch.lean ====
section
/-!
DEFINITION. `emitBranch` and its three conditions (spec/43_branch.md).
-/
namespace Sys2Proof.Machine

/-- `emitBranch(condition, targetAddress)` for any 4-bit `condition` (R190, R192): the displacement is computed from the
cursor before it advances; the compositor truncates the magnitude to six bits (R191). -/
def emitBranch (condition : Code) (target : Addr) (s : State) : Out :=
  whenLive s fun s => strictCheck (branchError? s.cursor condition target) s fun s => need 1 s fun s =>
  putInsn [(.opA, s.cfg.pcIndex.toNat), (.opimm, branchMag s.cursor target), (.op1, branchBack s.cursor target),
    (.op0, condition.toNat)] s done

/-- `emitBranch(NOT_EQUAL, targetAddress)` (R193). -/
def execBne (target : Addr) (s : State) : Out := emitBranch Code.NOT_EQUAL target s

/-- `emitBranch(EQUAL, targetAddress)` (R194). -/
def execBeq (target : Addr) (s : State) : Out := emitBranch Code.EQUAL target s

/-- `emitBranch(ALWAYS, targetAddress)` (R195). -/
def execBra (target : Addr) (s : State) : Out := emitBranch Code.ALWAYS target s

end Sys2Proof.Machine
end

