-- ==== Sys2Proof/Machine/Goto.lean ====
section
/-!
DEFINITION. `emitGoto`, the unconditional far jump (spec/44_goto.md).
-/
namespace Sys2Proof.Machine

/-- `emitGoto(targetAddress)` (R210): the compositor keeps the low six bits of the high part. -/
def execGoto (target : Addr) (s : State) : Out :=
  whenLive s fun s => strictCheck (gotoError? target) s fun s => need 2 s fun s =>
  putInsn [(.opA, s.cfg.pcIndex.toNat), (.opimm, gotoHigh target), (.op1, 2), (.op0, 15)] s fun s =>
  putWord (gotoLow target) s done

end Sys2Proof.Machine
end

