-- ==== Sys2Proof/Machine/SetLoadStore.lean ====
section
/-!
DEFINITION. `emitSet`, `emitLoad`, `emitStore` and the compound `storeImmediate` (spec/41_set_load_store.md).
-/
namespace Sys2Proof.Machine

/-- The two words of the SET form (R140; `op1` = 4 is the spec's decision D2). -/
def putSet (reg : Reg) (value : Word) (s : State) (k : State → Out) : Out :=
  putInsn [(.opA, reg.toNat), (.opB, reg.toNat), (.opN, 1), (.op1, 4), (.op0, 9)] s fun s =>
  putWord value s k

/-- The two words of the LOAD form (R141). -/
def putLoad (reg : Reg) (address : Addr) (s : State) (k : State → Out) : Out :=
  putInsn [(.opA, reg.toNat), (.opB, reg.toNat), (.opN, 2), (.op1, 4), (.op0, 9)] s fun s =>
  putWord (literalOf address) s k

/-- The two words of the STORE form (R142). -/
def putStore (address : Addr) (reg : Reg) (s : State) (k : State → Out) : Out :=
  putInsn [(.opA, reg.toNat), (.opB, reg.toNat), (.opN, 3), (.op1, 4), (.op0, 13)] s fun s =>
  putWord (literalOf address) s k

/-- `emitSet(reg, value)` (R140). -/
def execSet (reg : Reg) (value : Word) (s : State) : Out :=
  whenLive s fun s => need 2 s fun s => putSet reg value s done

/-- `emitLoad(reg, address)` (R141). -/
def execLoad (reg : Reg) (address : Addr) (s : State) : Out :=
  whenLive s fun s => strictCheck (addressError? address) s fun s => need 2 s fun s => putLoad reg address s done

/-- `emitStore(address, reg)` (R142). -/
def execStore (address : Addr) (reg : Reg) (s : State) : Out :=
  whenLive s fun s => strictCheck (addressError? address) s fun s => need 2 s fun s => putStore address reg s done

/-- `storeImmediate(address, value)`: the words of `emitSet` into the scratch register and of `emitStore` from it, all or
none (R97, R143, D22). -/
def storeImmediate (address : Addr) (value : Word) (s : State) : Out :=
  whenLive s fun s => strictCheck (addressError? address) s fun s => need 4 s fun s =>
  putSet s.cfg.scratchReg value s fun s => putStore address s.cfg.scratchReg s done

end Sys2Proof.Machine
end

