-- ==== Sys2Proof/Machine/Dispatch.lean ====
section
/-!
DEFINITION. One arm per row of the opcode table: the command that emits it.
-/
namespace Sys2Proof.Machine

def exec (i : Instr) (s : State) : Host.Outcome State Fault Refusal :=
  match i with
  | .set reg value => Sys2Proof.Machine.execSet reg value s
  | .load reg address => Sys2Proof.Machine.execLoad reg address s
  | .store address reg => Sys2Proof.Machine.execStore address reg s
  | .aluAdd dst src => Sys2Proof.Machine.execAluAdd dst src s
  | .aluAdc dst src => Sys2Proof.Machine.execAluAdc dst src s
  | .aluSub dst src => Sys2Proof.Machine.execAluSub dst src s
  | .aluSbc dst src => Sys2Proof.Machine.execAluSbc dst src s
  | .aluCmp dst src => Sys2Proof.Machine.execAluCmp dst src s
  | .aluNeg dst src => Sys2Proof.Machine.execAluNeg dst src s
  | .aluXor dst src => Sys2Proof.Machine.execAluXor dst src s
  | .aluLoad dst src => Sys2Proof.Machine.execAluLoad dst src s
  | .aluOr dst src => Sys2Proof.Machine.execAluOr dst src s
  | .aluAnd dst src => Sys2Proof.Machine.execAluAnd dst src s
  | .aluTest dst src => Sys2Proof.Machine.execAluTest dst src s
  | .aluStore dst src => Sys2Proof.Machine.execAluStore dst src s
  | .bne target => Sys2Proof.Machine.execBne target s
  | .beq target => Sys2Proof.Machine.execBeq target s
  | .bra target => Sys2Proof.Machine.execBra target s
  | .goto target => Sys2Proof.Machine.execGoto target s

end Sys2Proof.Machine
end

