-- ==== Sys2Proof/Machine/Fixup.lean ====
section
/-!
DEFINITION. The fixup engine (spec/45_fixup.md): `getCursor`, `patchBegin`, `patchSeek`, `patchEnd`. None writes a word.
-/
namespace Sys2Proof.Machine

/-- `getCursor()` (R220): answers in either mode, also during a relocation. -/
def getCursor (s : State) : Out :=
  whenLive s fun s => .next (s.answer (.position s.cursor))

/-- `patchBegin()` (R222). -/
def patchBegin (s : State) : Out :=
  whenLive s fun s => if s.active then .fault (.protocolFault .nested) else done s.openPatch

/-- `patchSeek(pos)` (R223): the cursor may be set to any cell. -/
def patchSeek (pos : CellAddr) (s : State) : Out :=
  whenLive s fun s =>
    if s.active then done (s.seek pos) else .fault (.protocolFault .seekOutsidePatch)

/-- `patchEnd()` (R224). -/
def patchEnd (s : State) : Out :=
  whenLive s fun s => if s.active then done s.closePatch else .fault (.protocolFault .endOutsidePatch)

end Sys2Proof.Machine
end

