-- ==== Sys2Proof/Machine/HostCommands.lean ====
section
/-!
DEFINITION. The host commands (spec/46_host_interface.md): `reset`, `poke`, `peek`, `serialize`.
-/
namespace Sys2Proof.Machine

/-- The state `reset()` leaves (R34, R240). `SAVED` is unspecified: a free value (log entry 9). The configuration, the
commands still to be issued and the results already returned are not the block's to change (log entry 11). -/
def State.cleared (s : State) : State :=
  { s with
    mem := []
    cursor := s.cfg.codeStart.setWidth 18
    saved := Config.freeSaved s.freeCount
    active := false
    faultCode := 0#2
    faultPos := 0#18
    faulted := none
    freeCount := s.freeCount + 1 }

/-- `reset()` (R240): accepted in every state, and the only way out of a model fault. -/
def hostReset (s : State) : Out := done s.cleared

/-- `poke(addr, v)` (R241). -/
def hostPoke (addr : CellAddr) (v : Word) (s : State) : Out :=
  whenLive s fun s => done (s.setCell addr.toNat v)

/-- `peek(addr)` (R242). -/
def hostPeek (addr : CellAddr) (s : State) : Out :=
  whenLive s fun s => .next (s.answer (.cell (Memory.read s.mem addr.toNat)))

/-- `serialize()` (R244): a pure read of all of memory. -/
def hostSerialize (s : State) : Out :=
  whenLive s fun s => .next (s.answer (.image (imageBytes s.cfg.byteOrder s.mem)))

end Sys2Proof.Machine
end

