-- ==== Sys2Proof/Machine/Step.lean ====
section
/-!
DEFINITION. One step: the caller's next command, performed completely (R7, R59).
-/
namespace Sys2Proof.Machine

/-- Perform a command (R8). A call that emits a row of the opcode table is that row's meaning; `emitAlu` with a reserved
code and `emitBranch` with an undefined condition emit no row and are the shared operation itself. -/
def runCommand (c : Command) (s : State) : Out :=
  match c with
  | .emitSet reg value => exec (.set reg value) s
  | .emitLoad reg address => exec (.load reg address) s
  | .emitStore address reg => exec (.store address reg) s
  | .storeImmediate address value => storeImmediate address value s
  | .emitAlu op dst src =>
    match aluInstr? op dst src with
    | some i => exec i s
    | none => emitAlu op dst src s
  | .emitBranch condition target =>
    match branchInstr? condition target with
    | some i => exec i s
    | none => emitBranch condition target s
  | .emitGoto target => exec (.goto target) s
  | .getCursor => getCursor s
  | .patchBegin => patchBegin s
  | .patchSeek pos => patchSeek pos s
  | .patchEnd => patchEnd s
  | .reset => hostReset s
  | .poke addr v => hostPoke addr v s
  | .peek addr => hostPeek addr s
  | .serialize => hostSerialize s

/-- One step. With no command issued nothing changes (R7). A model fault of a live block leaves the faulted state (R258). -/
def step (s : State) : Host.Outcome State Fault Refusal :=
  match nextCommand s with
  | none => .next s
  | some (c, issued) => settle issued (runCommand c issued)

/-- The state whose next step runs the instruction an opcode-table word stands for at the cursor. -/
def State.withFetchWord (s : State) (nbits w : Nat) : State := issueTableWord s nbits w

end Sys2Proof.Machine
end

