-- ==== Sys2Proof/Safety.lean ====
section
/-!
DEFINITION. The terms claims are stated in: a live block (R258 "every claim about a run takes 'no model fault occurred' as a
premise"), the invariants of R35 with the canonical form of memory, the state a completed emission leaves and the state an
error leaves, written out field by field apart from the operations that compute them, the table of R251 in the order of R255,
and a run of a command sequence (R245).
-/
namespace Sys2Proof.Machine

/-- No model fault has occurred since reset (R258). -/
abbrev State.Live (s : State) : Prop := s.faulted = none

/-- The invariants a model may assert of every state (R35, R22, R24, R29), and memory in canonical form. -/
structure State.Inv (s : State) : Prop where
  mem_wf : Memory.wf s.mem = true
  cursor_le : s.cursor.toNat ≤ memWords
  saved_le : s.active = true → s.saved.toNat ≤ memWords
  faultPos_le : s.faultPos.toNat ≤ memWords
  compat_silent : s.cfg.mode = .compat → s.faultCode = 0#2
  no_error_pos : s.faultCode = 0#2 → s.faultPos = 0#18

/-- Memory after `ws` are written at `a`, `a + 1`, …, in ascending order (R53). -/
def writeWords : Memory → Nat → List Word → Memory
  | m, _, [] => m
  | m, a, w :: ws => writeWords (Memory.write m a w) (a + 1) ws

/-- The `n` cells from `a` on. -/
def readWords (m : Memory) (a n : Nat) : List Word := (List.range n).map fun k => Memory.read m (a + k)

/-- The state after a command has emitted `ws` at the cursor and answered `Ok`: those cells, the cursor and the caller's
results change, and nothing else (R12, R22, R257). -/
def State.emitted (ws : List Word) (s : State) : State :=
  { s with
    mem := writeWords s.mem s.cursor.toNat ws
    cursor := s.cursor + BitVec.ofNat 18 ws.length
    results := ⟨.ok, s.faultCode, s.faultPos⟩ :: s.results }

/-- The state after the error `e`: the first-error record if there was none, and the result `Error(kind, info)`; nothing
else (R256). -/
def State.rejected (e : EncodingError) (s : State) : State :=
  { s with
    faultCode := if s.faultCode = 0#2 then e.kind.code else s.faultCode
    faultPos := if s.faultCode = 0#2 then s.cursor else s.faultPos
    results :=
      ⟨.error e, if s.faultCode = 0#2 then e.kind.code else s.faultCode,
        if s.faultCode = 0#2 then s.cursor else s.faultPos⟩ :: s.results }

/-- The words each emission command writes where it stands (R8, R86, R143), by the encoder; no words for the others. -/
def Command.emittedWords (cfg : Config) (pos : Cursor) : Command → List Word
  | .emitSet reg value => encodeAt cfg.pcIndex pos (.set reg value)
  | .emitLoad reg address => encodeAt cfg.pcIndex pos (.load reg address)
  | .emitStore address reg => encodeAt cfg.pcIndex pos (.store address reg)
  | .storeImmediate address value =>
    encodeAt cfg.pcIndex pos (.set cfg.scratchReg value) ++ encodeAt cfg.pcIndex pos (.store address cfg.scratchReg)
  | .emitAlu op dst src => encodeAlu op dst src
  | .emitBranch condition target => encodeBranch cfg.pcIndex pos condition target
  | .emitGoto target => encodeAt cfg.pcIndex pos (.goto target)
  | .getCursor => []
  | .patchBegin => []
  | .patchSeek _ => []
  | .patchEnd => []
  | .reset => []
  | .poke _ _ => []
  | .peek _ => []
  | .serialize => []

/-- How many words a command writes at the cursor (R8). -/
def Command.wordCount : Command → Nat
  | .emitSet _ _ => 2
  | .emitLoad _ _ => 2
  | .emitStore _ _ => 2
  | .storeImmediate _ _ => 4
  | .emitAlu _ _ _ => 1
  | .emitBranch _ _ => 1
  | .emitGoto _ => 2
  | .getCursor => 0
  | .patchBegin => 0
  | .patchSeek _ => 0
  | .patchEnd => 0
  | .reset => 0
  | .poke _ _ => 0
  | .peek _ => 0
  | .serialize => 0

/-- The seven emission commands (R3). -/
def Command.isEmission (c : Command) : Bool := decide (0 < c.wordCount)

/-- The `BufferOverrun` row of R251 for a command of `n` words. -/
def spaceError? (n : Nat) (cursor : Cursor) : Option EncodingError :=
  if cursor.toNat + n ≤ 131072 then none else some ⟨.bufferOverrun, cursor.toNat⟩

/-- The error a command raises in STRICT, row by row of R251 and R252 in the priority of R255; none where it completes. -/
def Command.strictError? (cursor : Cursor) : Command → Option EncodingError
  | .emitSet _ _ => spaceError? 2 cursor
  | .emitLoad _ address =>
    if address.toNat < 65536 then spaceError? 2 cursor else some ⟨.outOfRange, address.toNat⟩
  | .emitStore address _ =>
    if address.toNat < 65536 then spaceError? 2 cursor else some ⟨.outOfRange, address.toNat⟩
  | .storeImmediate address _ =>
    if address.toNat < 65536 then spaceError? 4 cursor else some ⟨.outOfRange, address.toNat⟩
  | .emitAlu op _ _ =>
    if op.toNat ∈ [5, 7, 14, 15] then some ⟨.reservedOpcode, op.toNat⟩ else spaceError? 1 cursor
  | .emitBranch condition target =>
    if condition.toNat ∉ [4, 5, 14] then some ⟨.reservedOpcode, condition.toNat⟩
    else if 63 < ((target.toNat : Int) - ((cursor.toNat : Int) + 1)).natAbs then
      some ⟨.outOfRange, (target.toNat : Int) - ((cursor.toNat : Int) + 1)⟩
    else spaceError? 1 cursor
  | .emitGoto target =>
    if target.toNat < 4194304 then spaceError? 2 cursor else some ⟨.outOfRange, target.toNat⟩
  | .getCursor => none
  | .patchBegin => none
  | .patchSeek _ => none
  | .patchEnd => none
  | .reset => none
  | .poke _ _ => none
  | .peek _ => none
  | .serialize => none

/-- The commands that emit at the cursor or only read: between two patch passes nothing else moves the cursor or writes a
cell elsewhere (R22, R52). -/
def Command.appends : Command → Bool
  | .emitSet _ _ => true
  | .emitLoad _ _ => true
  | .emitStore _ _ => true
  | .storeImmediate _ _ => true
  | .emitAlu _ _ _ => true
  | .emitBranch _ _ => true
  | .emitGoto _ => true
  | .getCursor => true
  | .patchBegin => false
  | .patchSeek _ => false
  | .patchEnd => false
  | .reset => false
  | .poke _ _ => false
  | .peek _ => true
  | .serialize => true

/-- The outcome of a sequence of commands issued one after another, each in the state the one before left (R59, R245); a
model fault ends it. -/
def runCommands : List Command → State → Out
  | [], s => .next s
  | c :: rest, s =>
    match runCommand c s with
    | .next t => runCommands rest t
    | .fault f => .fault f
    | .refused r => .refused r

end Sys2Proof.Machine
end

