-- ==== Sys2Proof/Certificates/Slice0/Obligations.lean ====
section
/-!
DEFINITION. What the model claims, for the provers: one `def Obligations.<Name> : Prop` each. Where a rule of the spec rests on
a decision the spec marks as its own (D<n> of spec/92_eei_decisions.md) the docstring names it. `State.emitted` and
`State.rejected` (Safety) write out, field by field, the state a completed emission and an error leave; being whole records,
they are each statement's frame.
-/
open Sys2Proof Sys2Proof.Machine

/-! ### Shapes that several statements share -/

/-- Where `ws` fit the outcome is the state with `ws` written at the cursor; where they do not, `BufferOverrun` in STRICT and
the model fault `Overrun` in COMPAT, nothing written (R254, D11). -/
def Sys2Proof.Machine.EmitsOrOverruns (o : Out) (ws : List Word) (s : State) : Prop :=
  (s.cursor.toNat + ws.length ≤ 131072 → o = .next (s.emitted ws)) ∧
  (131072 < s.cursor.toNat + ws.length → s.cfg.mode = .strict →
    o = .next (s.rejected ⟨.bufferOverrun, s.cursor.toNat⟩)) ∧
  (131072 < s.cursor.toNat + ws.length → s.cfg.mode = .compat → o = .fault .overrun)

/-- The answer of the command that led to `t`. -/
def Sys2Proof.Machine.State.lastAnswer (t : State) : Option Answer := t.results.head?.map Result.answer

/-- `x` and `y` are calls of one primitive of the fixup protocol, with the same condition where it is a branch (R227, R230). -/
def Sys2Proof.Machine.Command.samePrimitive : Command → Command → Prop
  | .emitGoto _, .emitGoto _ => True
  | .emitBranch c _, .emitBranch c' _ => c = c'
  | _, _ => False

/-! ### The Word Model -/

/-- The six masks are those of R120; the five of the register view are disjoint and cover the word; `opimm` is `opN` and
`opB` together. -/
def Obligations.FieldMasksPartitionTheWord : Prop :=
  WordField.opB.mask = 0x0007#16 ∧ WordField.opN.mask = 0x0038#16 ∧ WordField.op1.mask = 0x01C0#16 ∧
  WordField.opA.mask = 0x0E00#16 ∧ WordField.op0.mask = 0xF000#16 ∧ WordField.opimm.mask = 0x003F#16 ∧
  WordField.opB.mask ||| WordField.opN.mask ||| WordField.op1.mask ||| WordField.opA.mask ||| WordField.op0.mask =
    0xFFFF#16 ∧
  [WordField.opB, .opN, .op1, .opA, .op0].Pairwise (fun F G => F.mask &&& G.mask = 0#16) ∧
  WordField.opimm.mask = WordField.opN.mask ||| WordField.opB.mask

/-- R121: `setField` equals `w` outside the field's mask and holds the low bits of `v` inside it, truncating silently;
`v = 0` clears the field; writing back the value it has returns `w`; and the rule's three examples. -/
def Obligations.SetFieldWritesExactlyItsField : Prop :=
  (∀ (w : Word) (F : WordField) (v : Nat),
    setField w F v = (w &&& ~~~F.mask) ||| (BitVec.ofNat 16 (v % 2 ^ F.width) <<< F.lo) ∧
    setField w F v &&& ~~~F.mask = w &&& ~~~F.mask ∧
    setField w F v &&& F.mask = BitVec.ofNat 16 (v % 2 ^ F.width) <<< F.lo ∧
    setField w F v = setField w F (v % 2 ^ F.width) ∧
    setField w F 0 = w &&& ~~~F.mask ∧
    setField w F (getField w F) = w) ∧
  setField 0xFFFF#16 .opA 1 = 0xF3FF#16 ∧ setField 0x0000#16 .opimm 64 = 0x0000#16 ∧
  setField 0x0000#16 .opimm 65 = 0x0001#16

/-- R122: `getField` is the field's bits, zero-extended; and the rule's five examples. -/
def Obligations.GetFieldReadsTheFieldZeroExtended : Prop :=
  (∀ (w : Word) (F : WordField),
    getField w F = ((w &&& F.mask) >>> F.lo).toNat ∧
    getField w F = w.toNat / 2 ^ F.lo % 2 ^ F.width) ∧
  getField 0x9309#16 .op0 = 9 ∧ getField 0x9309#16 .opA = 1 ∧ getField 0x9309#16 .op1 = 4 ∧
  getField 0x9309#16 .opN = 1 ∧ getField 0x9309#16 .opB = 1

/-- R123: `compose` applies `setField` left to right; bits no named field covers keep their prior value; of overlapping pairs
the later wins on the shared bits; the empty list returns `prior`; and the rule's two examples. -/
def Obligations.ComposeAppliesAssignmentsInOrder : Prop :=
  (∀ prior : Word, compose prior [] = prior) ∧
  (∀ (prior : Word) (F : WordField) (v : Nat) (rest : List (WordField × Nat)),
    compose prior ((F, v) :: rest) = compose (setField prior F v) rest) ∧
  (∀ (prior : Word) (l : List (WordField × Nat)) (keep : Word),
    (∀ p ∈ l, p.1.mask &&& keep = 0#16) → compose prior l &&& keep = prior &&& keep) ∧
  (∀ (prior : Word) (l : List (WordField × Nat)) (F : WordField) (v : Nat),
    compose prior (l ++ [(F, v)]) &&& F.mask = setField 0#16 F v) ∧
  compose 0x0000#16 [(.opA, 1), (.opB, 1), (.opN, 1), (.op1, 4), (.op0, 9)] = 0x9309#16 ∧
  compose 0xFFFF#16 [(.opA, 1), (.opB, 1), (.opN, 1), (.op1, 4), (.op0, 9)] = 0x9309#16

/-- The four laws of the compositor (40_word_model.md section 3). Law 4: a list of disjoint fields that cover the word gives a
word that depends neither on the prior content nor on the order, and it is the assembly formula of its view. -/
def Obligations.CompositorLawsHold : Prop :=
  (∀ (w : Word) (F : WordField) (v : Nat), getField (setField w F v) F = v % 2 ^ F.width) ∧
  (∀ (w : Word) (F G : WordField) (u v : Nat), F.mask &&& G.mask = 0#16 →
    getField (setField w F v) G = getField w G ∧
    setField (setField w F u) G v = setField (setField w G v) F u) ∧
  (∀ (w : Word) (F : WordField) (u v : Nat), setField (setField w F u) F v = setField w F v) ∧
  (∀ (l l' : List (WordField × Nat)) (prior prior' : Word),
    l.Pairwise (fun p q => p.1.mask &&& q.1.mask = 0#16) →
    l.foldr (fun p m => p.1.mask ||| m) 0#16 = 0xFFFF#16 →
    l'.Perm l → compose prior l = compose prior' l') ∧
  (∀ (l : List (WordField × Nat)) (prior : Word) (a b n m o : Nat),
    l.Perm [(.opA, a), (.opB, b), (.opN, n), (.op1, m), (.op0, o)] →
    compose prior l = assembleRegister (BitVec.ofNat 4 o) (BitVec.ofNat 3 a) (BitVec.ofNat 3 m) (BitVec.ofNat 3 n)
      (BitVec.ofNat 3 b)) ∧
  (∀ (l : List (WordField × Nat)) (prior : Word) (a v m o : Nat),
    l.Perm [(.opA, a), (.opimm, v), (.op1, m), (.op0, o)] →
    compose prior l = assembleImmediate (BitVec.ofNat 4 o) (BitVec.ofNat 3 a) (BitVec.ofNat 3 m) (BitVec.ofNat 6 v))

/-! ### Encoding and decoding -/

/-- A few words written out from the encodings of R86 and the vectors V2 to V5 decode to the instruction they stand for, at
`PC_INDEX` = 7 and cell 0x8000. -/
def Obligations.SpecWordsDecodeToTheirInstructions : Prop :=
  decodeAt 7#3 0x8000#18 [0b1001001100001001#16, 0x8000#16] = .ok (.set 1#3 0x8000#16, []) ∧
  decodeAt 7#3 0x8000#18 [0b1001010100010010#16, 0x3D22#16] = .ok (.load 2#3 0x3D22#32, []) ∧
  decodeAt 7#3 0x8000#18 [0b1101001100011001#16, 0x2810#16] = .ok (.store 0x2810#32 1#3, []) ∧
  decodeAt 7#3 0x8000#18 [0b1100001100000010#16] = .ok (.aluTest 1#3 2#3, []) ∧
  decodeAt 7#3 0x8003#18 [0b0100111001000100#16] = .ok (.bne 0x8000#32, []) ∧
  decodeAt 7#3 0x8000#18 [0b0101111000000100#16] = .ok (.beq 0x8005#32, []) ∧
  decodeAt 7#3 0x8004#18 [0b1110111001000001#16] = .ok (.bra 0x8004#32, []) ∧
  decodeAt 7#3 0x8003#18 [0b1111111010000001#16, 0x2345#16] = .ok (.goto 0x12345#32, [])

/-- Decoding the encoding of any instruction whose operands fit gives it back, at every position, for every `PC_INDEX`, with
any words behind it: no bit of an operand is dropped (the round trips of R196 and R211 are among its cases). -/
def Obligations.DecodingAnEncodedInstructionGivesItBack : Prop :=
  ∀ (i : Instr) (pcIndex : Reg) (pos : Cursor) (rest : List Word), i.wellFormed pos = true →
    decodeAt pcIndex pos (encodeAt pcIndex pos i ++ rest) = .ok (i, rest)

/-- The other direction: a word list that decodes is the encoding of what it decodes to, and the operands fit, but for the
"backward by zero" branch words, which no in-range call writes (R191; their decoding is DEDUCED, log entry 14). -/
def Obligations.EncodingADecodedInstructionGivesTheWordsBack : Prop :=
  ∀ (i : Instr) (pcIndex : Reg) (pos : Cursor) (w : Word) (rest rest' : List Word),
    decodeAt pcIndex pos (w :: rest) = .ok (i, rest') →
    ¬ (getField w .op1 = 1 ∧ getField w .opimm = 0) →
    encodeAt pcIndex pos i ++ rest' = w :: rest ∧ i.wellFormed pos = true

/-- No 16-bit word has the fixed bits of two rows of the opcode table, and a word that decodes has those of its own row. -/
def Obligations.OpcodeRowsAreDisjointAndDecodingKeepsThem : Prop :=
  (∀ (w : Word) (r r' : Row), r ∈ opcodeRows → r' ∈ opcodeRows → w &&& r.mask = r.pattern → w &&& r'.mask = r'.pattern →
    r = r') ∧
  (∀ (i : Instr) (pos : Cursor) (w : Word) (rest rest' : List Word),
    decodeAt 7#3 pos (w :: rest) = .ok (i, rest') → Word.hasRow w i.mnemonic = true)

/-- The form recogniser and the length function of 30_encoding.md section 7 answer, for the instruction word of every command,
reserved ALU codes and undefined conditions included, exactly that command's form, fields and length. -/
def Obligations.EveryEmittedWordIsRecognised : Prop :=
  (∀ (pcIndex reg : Reg), (let w := assembleRegister 9#4 reg 4#3 1#3 reg
    formOf pcIndex w = .set reg ∧ lengthOf w = 2)) ∧
  (∀ (pcIndex reg : Reg), (let w := assembleRegister 9#4 reg 4#3 2#3 reg
    formOf pcIndex w = .load reg ∧ lengthOf w = 2)) ∧
  (∀ (pcIndex reg : Reg), (let w := assembleRegister 13#4 reg 4#3 3#3 reg
    formOf pcIndex w = .store reg ∧ lengthOf w = 2)) ∧
  (∀ (pcIndex : Reg) (op : Code) (dst src : Reg), ∃ w, encodeAlu op dst src = [w] ∧
    formOf pcIndex w = .alu op dst src ∧ lengthOf w = 1) ∧
  (∀ (pcIndex : Reg) (pos : Cursor) (condition : Code) (target : Addr), ∃ w,
    encodeBranch pcIndex pos condition target = [w] ∧
    formOf pcIndex w = .branch condition (decide (target.toNat < pos.toNat + 1))
      (BitVec.ofNat 6 ((target.toNat : Int) - ((pos.toNat : Int) + 1)).natAbs) ∧ lengthOf w = 1) ∧
  (∀ (pcIndex : Reg) (pos : Cursor) (target : Addr), ∃ w,
    encodeAt pcIndex pos (.goto target) = [w, BitVec.ofNat 16 (target.toNat % 65536)] ∧
    formOf pcIndex w = .goto (BitVec.ofNat 6 (target.toNat / 65536)) ∧ lengthOf w = 2)

/-! ### What each instruction emits -/

/-- `emitSet` (41_set_load_store.md; `op1` = 4 is the spec's decision D2): the word 0x9108 | reg<<9 | reg and the literal. -/
def Obligations.SetEmitsLoadImmediateAndLiteral : Prop :=
  ∀ (reg : Reg) (value : Word) (s : State), s.Live →
    EmitsOrOverruns (exec (.set reg value) s)
      [0x9108#16 ||| (reg.setWidth 16 <<< 9) ||| reg.setWidth 16, value] s

/-- `emitLoad` (41_set_load_store.md; the STRICT check is D10): the word 0x9110 | reg<<9 | reg and `address mod 65536`;
in STRICT an address of 2^16 or more is `OutOfRange(address)`, before the space check. -/
def Obligations.LoadEmitsAbsoluteLoadAndAddress : Prop :=
  ∀ (reg : Reg) (address : Addr) (s : State), s.Live →
    (s.cfg.mode = .strict → 65536 ≤ address.toNat →
      exec (.load reg address) s = .next (s.rejected ⟨.outOfRange, address.toNat⟩)) ∧
    (s.cfg.mode = .compat ∨ address.toNat < 65536 →
      EmitsOrOverruns (exec (.load reg address) s)
        [0x9110#16 ||| (reg.setWidth 16 <<< 9) ||| reg.setWidth 16, BitVec.ofNat 16 (address.toNat % 65536)] s)

/-- `emitStore` (41_set_load_store.md; D10): the word 0xD118 | reg<<9 | reg and `address mod 65536`; checks as for
`emitLoad`. -/
def Obligations.StoreEmitsAbsoluteStoreAndAddress : Prop :=
  ∀ (reg : Reg) (address : Addr) (s : State), s.Live →
    (s.cfg.mode = .strict → 65536 ≤ address.toNat →
      exec (.store address reg) s = .next (s.rejected ⟨.outOfRange, address.toNat⟩)) ∧
    (s.cfg.mode = .compat ∨ address.toNat < 65536 →
      EmitsOrOverruns (exec (.store address reg) s)
        [0xD118#16 ||| (reg.setWidth 16 <<< 9) ||| reg.setWidth 16, BitVec.ofNat 16 (address.toNat % 65536)] s)

/-- `storeImmediate` (41_set_load_store.md; D18, D22): four words through the scratch register, or none. -/
def Obligations.StoreImmediateEmitsFourWordsOrNone : Prop :=
  ∀ (address : Addr) (value : Word) (s : State), s.Live →
    (s.cfg.mode = .strict → 65536 ≤ address.toNat →
      runCommand (.storeImmediate address value) s = .next (s.rejected ⟨.outOfRange, address.toNat⟩)) ∧
    (s.cfg.mode = .compat ∨ address.toNat < 65536 →
      EmitsOrOverruns (runCommand (.storeImmediate address value) s)
        [0x9108#16 ||| (s.cfg.scratchReg.setWidth 16 <<< 9) ||| s.cfg.scratchReg.setWidth 16, value,
          0xD118#16 ||| (s.cfg.scratchReg.setWidth 16 <<< 9) ||| s.cfg.scratchReg.setWidth 16,
          BitVec.ofNat 16 (address.toNat % 65536)] s)

/-- `emitAlu` (42_alu.md): op<<12 | dst<<9 | 0x100 | src, one word, for every code and register pair; a reserved code is written
as given in COMPAT and is `ReservedOpcode(op)` in STRICT, before the space check. What an overrun does in each mode is the spec's
decision D11 (its form in the model: log entry 10), and the error record is D9. -/
def Obligations.AluCommandEmitsOneRegisterWord : Prop :=
  ∀ (op : Code) (dst src : Reg) (s : State), s.Live →
    (s.cfg.mode = .strict → op.toNat ∈ [5, 7, 14, 15] →
      runCommand (.emitAlu op dst src) s = .next (s.rejected ⟨.reservedOpcode, op.toNat⟩)) ∧
    (s.cfg.mode = .compat ∨ op.toNat ∉ [5, 7, 14, 15] →
      EmitsOrOverruns (runCommand (.emitAlu op dst src) s)
        [(op.setWidth 16 <<< 12) ||| (dst.setWidth 16 <<< 9) ||| 0x0100#16 ||| src.setWidth 16] s) ∧
    (op = 5#4 → (op.setWidth 16 <<< 12) ||| 0x0100#16 = 0x5100#16) ∧
    (op = 7#4 → (op.setWidth 16 <<< 12) ||| 0x0100#16 = 0x7100#16) ∧
    (op = 14#4 → (op.setWidth 16 <<< 12) ||| 0x0100#16 = 0xE100#16) ∧
    (op = 15#4 → (op.setWidth 16 <<< 12) ||| 0x0100#16 = 0xF100#16) ∧
    (op = 12#4 → dst = 1#3 → src = 2#3 →
      (op.setWidth 16 <<< 12) ||| (dst.setWidth 16 <<< 9) ||| 0x0100#16 ||| src.setWidth 16 = 0xC302#16)

/-- The twelve operations (42_alu.md): the word of each, its fixed bits, its lowest and highest word and the two examples.
`ReservedOpcode` is impossible; overrun is the only error. What it does in each mode is the spec's decision D11 (its form in the
model: log entry 10), and the error record is D9. -/
def Obligations.TwelveAluOperationsEmitTheirWords : Prop :=
  ∀ (d r : Reg) (s : State), s.Live →
    (let f : Word := (d.setWidth 16 <<< 9) ||| r.setWidth 16
     EmitsOrOverruns (exec (.aluAdd d r) s) [0x0100#16 ||| f] s ∧
     EmitsOrOverruns (exec (.aluAdc d r) s) [0x1100#16 ||| f] s ∧
     EmitsOrOverruns (exec (.aluSub d r) s) [0x2100#16 ||| f] s ∧
     EmitsOrOverruns (exec (.aluSbc d r) s) [0x3100#16 ||| f] s ∧
     EmitsOrOverruns (exec (.aluCmp d r) s) [0x4100#16 ||| f] s ∧
     EmitsOrOverruns (exec (.aluNeg d r) s) [0x6100#16 ||| f] s ∧
     EmitsOrOverruns (exec (.aluXor d r) s) [0x8100#16 ||| f] s ∧
     EmitsOrOverruns (exec (.aluLoad d r) s) [0x9100#16 ||| f] s ∧
     EmitsOrOverruns (exec (.aluOr d r) s) [0xA100#16 ||| f] s ∧
     EmitsOrOverruns (exec (.aluAnd d r) s) [0xB100#16 ||| f] s ∧
     EmitsOrOverruns (exec (.aluTest d r) s) [0xC100#16 ||| f] s ∧
     EmitsOrOverruns (exec (.aluStore d r) s) [0xD100#16 ||| f] s) ∧
    (∀ c : Word, c ∈ [0x0100#16, 0x1100#16, 0x2100#16, 0x3100#16, 0x4100#16, 0x6100#16, 0x8100#16, 0x9100#16, 0xA100#16,
        0xB100#16, 0xC100#16, 0xD100#16] →
      (c ||| ((d.setWidth 16 <<< 9) ||| r.setWidth 16)) &&& 0xF1F8#16 = c ∧
      c ≤ c ||| ((d.setWidth 16 <<< 9) ||| r.setWidth 16) ∧
      c ||| ((d.setWidth 16 <<< 9) ||| r.setWidth 16) ≤ c ||| 0x0E07#16 ∧
      (d = 1#3 → r = 2#3 → c ||| ((d.setWidth 16 <<< 9) ||| r.setWidth 16) = c + 0x0202#16) ∧
      (d = 3#3 → r = 4#3 → c ||| ((d.setWidth 16 <<< 9) ||| r.setWidth 16) = c + 0x0604#16))

/-- `emitBranch` (43_branch.md; D3, D4, D10, D21, D24): the strict checks in their order, else one word: the condition,
`PC_INDEX`, the direction flag in the whole field `op1`, and the magnitude modulo 64. -/
def Obligations.BranchCommandEmitsDirectionAndMagnitude : Prop :=
  ∀ (condition : Code) (target : Addr) (s : State), s.Live →
    (let delta : Int := (target.toNat : Int) - ((s.cursor.toNat : Int) + 1)
     let back : Nat := if target.toNat < s.cursor.toNat + 1 then 1 else 0
     (s.cfg.mode = .strict → condition.toNat ∉ [4, 5, 14] →
       runCommand (.emitBranch condition target) s = .next (s.rejected ⟨.reservedOpcode, condition.toNat⟩)) ∧
     (s.cfg.mode = .strict → condition.toNat ∈ [4, 5, 14] → 63 < delta.natAbs →
       runCommand (.emitBranch condition target) s = .next (s.rejected ⟨.outOfRange, delta⟩)) ∧
     (s.cfg.mode = .compat ∨ (condition.toNat ∈ [4, 5, 14] ∧ delta.natAbs ≤ 63) →
       EmitsOrOverruns (runCommand (.emitBranch condition target) s)
         [(condition.setWidth 16 <<< 12) ||| (s.cfg.pcIndex.setWidth 16 <<< 9) ||| (BitVec.ofNat 16 back <<< 6) |||
           BitVec.ofNat 16 (delta.natAbs % 64)] s))

/-- BNE, BEQ and BRA (43_branch.md; D3, D4, D10): the words of the three conditions; with `PC_INDEX` = 7 they are 0x4E00,
0x5E00 and 0xEE00 with the flag and the magnitude. -/
def Obligations.ThreeConditionsEmitTheirBranchWords : Prop :=
  ∀ (target : Addr) (s : State), s.Live →
    (let delta : Int := (target.toNat : Int) - ((s.cursor.toNat : Int) + 1)
     let low : Word := (BitVec.ofNat 16 (if target.toNat < s.cursor.toNat + 1 then 1 else 0) <<< 6) |||
       BitVec.ofNat 16 (delta.natAbs % 64)
     let reg : Word := s.cfg.pcIndex.setWidth 16 <<< 9
     (s.cfg.mode = .strict → 63 < delta.natAbs →
       exec (.bne target) s = .next (s.rejected ⟨.outOfRange, delta⟩) ∧
       exec (.beq target) s = .next (s.rejected ⟨.outOfRange, delta⟩) ∧
       exec (.bra target) s = .next (s.rejected ⟨.outOfRange, delta⟩)) ∧
     (s.cfg.mode = .compat ∨ delta.natAbs ≤ 63 →
       EmitsOrOverruns (exec (.bne target) s) [0x4000#16 ||| reg ||| low] s ∧
       EmitsOrOverruns (exec (.beq target) s) [0x5000#16 ||| reg ||| low] s ∧
       EmitsOrOverruns (exec (.bra target) s) [0xE000#16 ||| reg ||| low] s) ∧
     (s.cfg.pcIndex = 7#3 →
       0x4000#16 ||| reg ||| low = 0x4E00#16 ||| low ∧ 0x5000#16 ||| reg ||| low = 0x5E00#16 ||| low ∧
       0xE000#16 ||| reg ||| low = 0xEE00#16 ||| low))

/-- The range law and the truncation (43_branch.md). In either mode, within 63 words the magnitude and the direction are exact. In
COMPAT outside it: the true direction flag, the low six bits of the magnitude, one word, nothing signalled, and what the word
denotes misses the target by a non-zero multiple of 64; a placeholder with target 0 is backward with `(cursor + 1) mod 64`. That
the whole field `op1` is 0 or 1 is the spec's decision D3, and that COMPAT writes an undefined condition as given is D21. -/
def Obligations.BranchMagnitudeIsExactOrTruncated : Prop :=
  ∀ (condition : Code) (target : Addr) (s : State), s.Live → s.cursor.toNat < 131072 →
    s.cfg.mode = .compat ∨
      (condition.toNat ∈ [4, 5, 14] ∧ ((target.toNat : Int) - ((s.cursor.toNat : Int) + 1)).natAbs ≤ 63) →
    ∃ w : Word, runCommand (.emitBranch condition target) s = .next (s.emitted [w]) ∧
      (let delta : Int := (target.toNat : Int) - ((s.cursor.toNat : Int) + 1)
       let back : Bool := decide (target.toNat < s.cursor.toNat + 1)
       let denoted : Int := branchTarget s.cursor back (BitVec.ofNat 6 (getField w .opimm))
       getField w .op0 = condition.toNat ∧ getField w .opA = s.cfg.pcIndex.toNat ∧
       getField w .op1 = (if back then 1 else 0) ∧ getField w .opimm = delta.natAbs % 64 ∧
       (delta.natAbs ≤ 63 → getField w .opimm = delta.natAbs ∧ denoted = target.toNat) ∧
       (63 < delta.natAbs → ∃ k : Int, k ≠ 0 ∧ denoted - target.toNat = 64 * k) ∧
       (delta = 64 ∨ delta = 0 → s.cfg.pcIndex = 7#3 → w = (condition.setWidth 16 <<< 12) ||| 0x0E00#16) ∧
       (delta = -64 → s.cfg.pcIndex = 7#3 → w = (condition.setWidth 16 <<< 12) ||| 0x0E40#16) ∧
       (delta.natAbs ≤ 63 → s.cfg.pcIndex = 7#3 → w ≠ (condition.setWidth 16 <<< 12) ||| 0x0E40#16) ∧
       (delta = -65 → getField w .opimm = 1) ∧
       (target = 0#32 → getField w .op1 = 1 ∧ getField w .opimm = (s.cursor.toNat + 1) % 64))

/-- `emitGoto` (44_goto.md; D4, D10): the far-jump word with the high part modulo 64, and the low 16 bits; in STRICT a target
of 2^22 or more is `OutOfRange(targetAddress)`; with `PC_INDEX` = 7 the word is 0xFE80 | high; a target below 2^22 is what the
two words denote. -/
def Obligations.GotoEmitsHighPartAndLowWord : Prop :=
  ∀ (target : Addr) (s : State), s.Live →
    (let high : Nat := target.toNat / 65536
     let w : Word := 0xF000#16 ||| (s.cfg.pcIndex.setWidth 16 <<< 9) ||| 0x0080#16 ||| BitVec.ofNat 16 (high % 64)
     let low : Word := BitVec.ofNat 16 (target.toNat % 65536)
     (s.cfg.mode = .strict → 4194304 ≤ target.toNat →
       exec (.goto target) s = .next (s.rejected ⟨.outOfRange, target.toNat⟩)) ∧
     (s.cfg.mode = .compat ∨ target.toNat < 4194304 → EmitsOrOverruns (exec (.goto target) s) [w, low] s) ∧
     (s.cfg.pcIndex = 7#3 → w = 0xFE80#16 ||| BitVec.ofNat 16 (high % 64)) ∧
     (target.toNat < 4194304 → gotoTarget (BitVec.ofNat 6 (getField w .opimm)) low = target))

/-! ### What every emission command does, and does not -/

/-- Every emission command is the table of R251 in the order of R255 and, where that names no error, its encoding written at
the cursor; in COMPAT it writes its encoding whatever the operands, or overruns. The right-hand sides (`strictError?`,
`emittedWords`) are written from the spec's tables and the encoder, not from the compositor (D9, D10, D11, D21, D22). -/
def Obligations.EmissionCommandsRefineTheEncoder : Prop :=
  ∀ (c : Command) (s : State), s.Live → c.isEmission = true →
    (s.cfg.mode = .strict → ∀ e, c.strictError? s.cursor = some e → runCommand c s = .next (s.rejected e)) ∧
    (s.cfg.mode = .strict → c.strictError? s.cursor = none →
      runCommand c s = .next (s.emitted (c.emittedWords s.cfg s.cursor))) ∧
    (s.cfg.mode = .compat → s.cursor.toNat + c.wordCount ≤ 131072 →
      runCommand c s = .next (s.emitted (c.emittedWords s.cfg s.cursor))) ∧
    (s.cfg.mode = .compat → 131072 < s.cursor.toNat + c.wordCount → runCommand c s = .fault .overrun) ∧
    (c.emittedWords s.cfg s.cursor).length = c.wordCount

/-- What an instruction leaves unchanged: configuration, `SAVED`, `ACTIVE`, the model fault, what is still to be issued and the
earlier results always; every cell outside the words at the cursor; and either it advanced past its words leaving the error
record alone, or it raised an error in STRICT and wrote nothing. -/
def Obligations.InstructionsChangeOnlyTheirCells : Prop :=
  ∀ (i : Instr) (s t : State), exec i s = .next t →
    t.cfg = s.cfg ∧ t.saved = s.saved ∧ t.active = s.active ∧ t.faulted = s.faulted ∧ t.pending = s.pending ∧
    t.freeCount = s.freeCount ∧ t.results.tail = s.results ∧
    (∀ a, a < s.cursor.toNat ∨ s.cursor.toNat + i.wordCount ≤ a → Memory.read t.mem a = Memory.read s.mem a) ∧
    ((t.lastAnswer = some .ok ∧ t.cursor.toNat = s.cursor.toNat + i.wordCount ∧ t.faultCode = s.faultCode ∧
        t.faultPos = s.faultPos) ∨
      (s.cfg.mode = .strict ∧ t.mem = s.mem ∧ t.cursor = s.cursor ∧ ∃ e, t.lastAnswer = some (.error e)))

/-- The words an emission writes do not depend on what any cell held (40_word_model.md section 3; D2, D3): whatever other memory
the block held, the command leaves the same state, but for the memory, which is that memory with the same words written. -/
def Obligations.EmittedWordsIgnorePriorContent : Prop :=
  ∀ (c : Command) (s t : State), c.isEmission = true → runCommand c s = .next t →
    ∃ ws : List Word, ws.length ≤ c.wordCount ∧ t.mem = writeWords s.mem s.cursor.toNat ws ∧
      ∀ m : Memory, runCommand c { s with mem := m } = .next { t with mem := writeWords m s.cursor.toNat ws }

/-- Wherever two positions admit a command other than `emitBranch` it writes the same words at both; the word of a branch
depends on the position through the displacement alone (10_state.md section 3). -/
def Obligations.WordsDependOnPositionOnlyForBranches : Prop :=
  (∀ (c : Command) (s t t' : State) (p : Cursor), c.isEmission = true → Memory.wf s.mem = true →
    (∀ condition target, c ≠ .emitBranch condition target) →
    runCommand c s = .next t → runCommand c { s with cursor := p } = .next t' →
    t.lastAnswer = some .ok → t'.lastAnswer = some .ok →
    readWords t'.mem p.toNat c.wordCount = readWords t.mem s.cursor.toNat c.wordCount) ∧
  (∀ (condition : Code) (target target' : Addr) (s t t' : State) (p : Cursor), Memory.wf s.mem = true →
    (target.toNat : Int) - s.cursor.toNat = (target'.toNat : Int) - p.toNat →
    runCommand (.emitBranch condition target) s = .next t →
    runCommand (.emitBranch condition target') { s with cursor := p } = .next t' →
    t.lastAnswer = some .ok → t'.lastAnswer = some .ok →
    Memory.read t'.mem p.toNat = Memory.read t.mem s.cursor.toNat)

/-- Emission behaves the same during a relocation: neither `ACTIVE` nor `SAVED` changes what an emission command does
(10_state.md section 4, 45_fixup.md section 2). -/
def Obligations.EmissionIgnoresTheFixupRegisters : Prop :=
  ∀ (c : Command) (s : State) (b : Bool) (v : Cursor), c.isEmission = true →
    (∀ t, runCommand c s = .next t →
      runCommand c { s with active := b, saved := v } = .next { t with active := b, saved := v }) ∧
    (∀ f, runCommand c s = .fault f → runCommand c { s with active := b, saved := v } = .fault f)

/-- The cells an instruction wrote decode, at its position, to that instruction (the source's testable properties, 95_test_vectors.md
S2 to S6), where its operands fit. -/
def Obligations.EmittedCellsDecodeToTheInstruction : Prop :=
  ∀ (i : Instr) (s : State), s.Live → Memory.wf s.mem = true → i.wellFormed s.cursor = true →
    s.cursor.toNat + i.wordCount ≤ 131072 →
    ∃ t, exec i s = .next t ∧
      decodeAt s.cfg.pcIndex s.cursor (readWords t.mem s.cursor.toNat i.wordCount) = .ok (i, [])

/-- The same through the serialised image, in either byte order: the bytes at offset 2·cursor of the image decode to the
instruction emitted there (46_host_interface.md, serialize; D16). -/
def Obligations.ImageHoldsTheEmittedInstruction : Prop :=
  ∀ (i : Instr) (s : State), s.Live → Memory.wf s.mem = true → i.wellFormed s.cursor = true →
    s.cursor.toNat + i.wordCount ≤ 131072 →
    ∃ t u bytes, exec i s = .next t ∧ runCommand .serialize t = .next u ∧ u.lastAnswer = some (.image bytes) ∧
      decodeBytes s.cfg.byteOrder s.cfg.pcIndex s.cursor
        ((bytes.drop (2 * s.cursor.toNat)).take (2 * i.wordCount)) = .ok (i, [])

/-! ### Errors and model faults -/

/-- The error entry (60_exceptions.md section 4; D9): an error is raised in STRICT only and by emission commands only; memory,
cursor, `SAVED`, `ACTIVE` and all else are as before; the first error sets `FAULT_CODE` to the numeric code of its kind and
`FAULT_POS` to the cursor, a later one changes neither; the caller reads both with the result. -/
def Obligations.ErrorsArePreciseAndRecordedOnce : Prop :=
  ∀ (c : Command) (s t : State) (e : EncodingError), runCommand c s = .next t → t.lastAnswer = some (.error e) →
    s.cfg.mode = .strict ∧ c.isEmission = true ∧ t.mem = s.mem ∧ t.cursor = s.cursor ∧ t.saved = s.saved ∧
    t.active = s.active ∧ t.cfg = s.cfg ∧ t.faulted = none ∧ t.pending = s.pending ∧ t.freeCount = s.freeCount ∧
    t.results = ⟨.error e, t.faultCode, t.faultPos⟩ :: s.results ∧
    (s.faultCode = 0#2 → t.faultPos = s.cursor ∧
      (e.kind = .outOfRange → t.faultCode = 1#2) ∧ (e.kind = .reservedOpcode → t.faultCode = 2#2) ∧
      (e.kind = .bufferOverrun → t.faultCode = 3#2)) ∧
    (s.faultCode ≠ 0#2 → t.faultCode = s.faultCode ∧ t.faultPos = s.faultPos)

/-- The first-error record changes only by `reset()` or by an error while it is empty (10_state.md section 7; D9), at every
step. -/
def Obligations.FirstErrorIsStickyUntilReset : Prop :=
  ∀ s t : State, step s = .next t → (∀ rest, s.pending ≠ .reset :: rest) →
    (s.faultCode ≠ 0#2 → t.faultCode = s.faultCode ∧ t.faultPos = s.faultPos) ∧
    (s.faultCode = 0#2 → (t.faultCode = 0#2 ∧ t.faultPos = s.faultPos) ∨ ∃ e, t.lastAnswer = some (.error e))

/-- COMPAT is fail-silent (60_exceptions.md section 1; D8): no command answers an error or writes the error record, and every
emission whose words fit answers `Ok`, whatever its operands. -/
def Obligations.CompatModeSignalsNothing : Prop :=
  ∀ (c : Command) (s : State), s.cfg.mode = .compat →
    (∀ t, runCommand c s = .next t → (∀ e, t.lastAnswer ≠ some (.error e)) ∧
      (c ≠ .reset → t.faultCode = s.faultCode ∧ t.faultPos = s.faultPos)) ∧
    (s.Live → c.isEmission = true → s.cursor.toNat + c.wordCount ≤ 131072 →
      ∃ t, runCommand c s = .next t ∧ t.lastAnswer = some .ok)

/-- A live block meets a model fault in exactly these cases (60_exceptions.md section 4; D11, D13): an emission that does not fit
in COMPAT; a nested `patchBegin`; `patchSeek` or `patchEnd` outside a patch pass. Nothing is refused. -/
def Obligations.ModelFaultsAreOverrunAndPatchMisuse : Prop :=
  ∀ (c : Command) (s : State), s.Live →
    (∀ f, runCommand c s = .fault f ↔
      (s.cfg.mode = .compat ∧ c.isEmission = true ∧ 131072 < s.cursor.toNat + c.wordCount ∧ f = .overrun) ∨
      (c = .patchBegin ∧ s.active = true ∧ f = .protocolFault .nested) ∨
      ((∃ pos, c = .patchSeek pos) ∧ s.active = false ∧ f = .protocolFault .seekOutsidePatch) ∨
      (c = .patchEnd ∧ s.active = false ∧ f = .protocolFault .endOutsidePatch)) ∧
    (∀ r, runCommand c s ≠ .refused r)

/-- A faulted block (60_exceptions.md section 4; D27, log entry 10): every instruction and every command but `reset()` stops with the
fault that is kept, whether called or issued to a step; `reset()` leaves a live block. -/
def Obligations.FaultedBlockStopsUntilReset : Prop :=
  ∀ (s : State) (f : Fault), s.faulted = some f →
    (∀ i, exec i s = .fault f) ∧
    (∀ c, c ≠ .reset → runCommand c s = .fault f ∧ step (s.issue c) = .fault f) ∧
    (∃ t, runCommand .reset s = .next t ∧ t.Live) ∧ (∃ t, step (s.issue .reset) = .next t ∧ t.Live)

/-- The step that meets a model fault leaves the faulted state: the fault kept and answered, all else as it was, the command
issued (60_exceptions.md section 4; the form is the model's choice, log entry 10). -/
def Obligations.ModelFaultIsKeptByTheStep : Prop :=
  ∀ (s : State) (c : Command) (rest : List Command) (f : Fault), s.Live → s.pending = c :: rest →
    runCommand c { s with pending := rest } = .fault f →
    step s = .next { s with
      pending := rest, faulted := some f, results := ⟨.modelFault f, s.faultCode, s.faultPos⟩ :: s.results }

/-! ### The fixup engine -/

/-- R220: `getCursor` returns the cursor, which may be 131072, and changes no state, in any mode, also during a relocation;
two calls return the same; and the rule's example. -/
def Obligations.GetCursorReturnsThePosition : Prop :=
  ∀ s : State, s.Live →
    runCommand .getCursor s =
      .next { s with results := ⟨.position s.cursor, s.faultCode, s.faultPos⟩ :: s.results } ∧
    (∀ t u, runCommand .getCursor s = .next t → runCommand .getCursor t = .next u → u.lastAnswer = t.lastAnswer) ∧
    (∀ reg value, s.cfg.codeStart = 0x8000#17 → ∃ t,
      runCommands [.reset, .emitSet reg value, .getCursor] s = .next t ∧ t.lastAnswer = some (.position 0x8002#18))

/-- `patchBegin` (45_fixup.md section 1; D12, D13): saves the cursor and sets `ACTIVE`; a model fault if one is open. -/
def Obligations.PatchBeginSavesTheCursor : Prop :=
  ∀ s : State, s.Live →
    (s.active = false → runCommand .patchBegin s =
      .next { s with saved := s.cursor, active := true, results := ⟨.ok, s.faultCode, s.faultPos⟩ :: s.results }) ∧
    (s.active = true → runCommand .patchBegin s = .fault (.protocolFault .nested))

/-- `patchSeek` (45_fixup.md section 1; D12, D13, D25): moves the cursor to any cell; a model fault outside a patch pass. -/
def Obligations.PatchSeekMovesTheCursor : Prop :=
  ∀ (pos : CellAddr) (s : State), s.Live →
    (s.active = true → ∃ t, runCommand (.patchSeek pos) s = .next t ∧ t.cursor.toNat = pos.toNat ∧
      t = { s with cursor := t.cursor, results := ⟨.ok, s.faultCode, s.faultPos⟩ :: s.results }) ∧
    (s.active = false → runCommand (.patchSeek pos) s = .fault (.protocolFault .seekOutsidePatch))

/-- `patchEnd` (45_fixup.md section 1; D12, D13): restores the cursor and clears `ACTIVE`; `SAVED` keeps its value; a model fault
outside a patch pass. -/
def Obligations.PatchEndRestoresTheCursor : Prop :=
  ∀ s : State, s.Live →
    (s.active = true → runCommand .patchEnd s =
      .next { s with cursor := s.saved, active := false, results := ⟨.ok, s.faultCode, s.faultPos⟩ :: s.results }) ∧
    (s.active = false → runCommand .patchEnd s = .fault (.protocolFault .endOutsidePatch))

/-- "Cursor after patch-and-restore equals cursor before the patch began": whatever is sought, emitted, poked or read in between,
errors included, the block is out of the pass with the cursor it had. -/
def Obligations.PatchPassRestoresTheCursor : Prop :=
  ∀ (s t : State) (body : List Command),
    (∀ c ∈ body, c ≠ .reset ∧ c ≠ .patchBegin ∧ c ≠ .patchEnd) →
    runCommands (.patchBegin :: (body ++ [.patchEnd])) s = .next t →
    t.cursor = s.cursor ∧ t.active = false

/-- Fixup idempotence (45_fixup.md section 2): a placeholder emitted at the cursor and patched, after any further appending
commands, with the same primitive and the real target leaves the memory, the cursor and the error record of the run that
emitted the real target in the first place. In STRICT both targets pass the checks. Between the placeholder and its patch stand
commands that emit at the cursor or only read: a `poke` of the placeholder, or another pass over it, would tell the runs apart. -/
def Obligations.PatchingEqualsEmittingTheRealTarget : Prop :=
  ∀ (s t : State) (placeholder real : Command) (body : List Command) (pos : CellAddr),
    s.Live → s.active = false → Memory.wf s.mem = true → s.cursor = pos.setWidth 18 →
    placeholder.samePrimitive real → (∀ c ∈ body, c.appends = true) →
    (s.cfg.mode = .strict → placeholder.strictError? s.cursor = none ∧ real.strictError? s.cursor = none) →
    runCommands (real :: body) s = .next t →
    ∃ u, runCommands (placeholder :: (body ++ [.patchBegin, .patchSeek pos, real, .patchEnd])) s = .next u ∧
      u.mem = t.mem ∧ u.cursor = t.cursor ∧ u.active = t.active ∧ u.faultCode = t.faultCode ∧ u.faultPos = t.faultPos

/-- `SAVED` is written only by `patchBegin` and `reset()`, `ACTIVE` only by `patchBegin`, `patchEnd` and `reset()`
(10_state.md section 4). -/
def Obligations.FixupRegistersHaveTheirWritersOnly : Prop :=
  ∀ (c : Command) (s t : State), runCommand c s = .next t →
    (c ≠ .patchBegin → c ≠ .reset → t.saved = s.saved) ∧
    (c ≠ .patchBegin → c ≠ .patchEnd → c ≠ .reset → t.active = s.active)

/-! ### Host commands and memory -/

/-- The power-on state (10_state.md section 9, 70_reset_and_hazards.md section 1; D7), for every configuration, and the state after
reset as one case of it (its configuration is the model's choice, log entries 2 to 7). `SAVED` is not stated. -/
def Obligations.PowerOnLeavesTheResetValues : Prop :=
  (∀ cfg : Config, (∀ a, Memory.read (State.powerOn cfg).mem a = 0#16) ∧
    (State.powerOn cfg).cursor.toNat = cfg.codeStart.toNat ∧ (State.powerOn cfg).active = false ∧
    (State.powerOn cfg).faultCode = 0#2 ∧ (State.powerOn cfg).faultPos = 0#18 ∧ (State.powerOn cfg).Live ∧
    (State.powerOn cfg).cfg = cfg ∧ (State.powerOn cfg).pending = []) ∧
  State.reset = State.powerOn State.reset.cfg

/-- `reset()` (46_host_interface.md; D7, D15, D27): accepted in every state; every cell 0x0000, the cursor at `CODE_START`, no
relocation, no error, no fault; the configuration is not changed. `SAVED` is unspecified and not stated. -/
def Obligations.ResetCommandInitialisesTheSession : Prop :=
  ∀ s : State, ∃ t, runCommand .reset s = .next t ∧ (∀ a, Memory.read t.mem a = 0#16) ∧ Memory.wf t.mem = true ∧
    t.cursor.toNat = s.cfg.codeStart.toNat ∧ t.active = false ∧ t.faultCode = 0#2 ∧ t.faultPos = 0#18 ∧ t.Live ∧
    t.cfg = s.cfg ∧ t.pending = s.pending ∧ t.results = ⟨.ok, 0#2, 0#18⟩ :: s.results

/-- `poke` (46_host_interface.md; D15): the cell takes the value, every other cell and every other field is unchanged. -/
def Obligations.PokeWritesOneCell : Prop :=
  ∀ (addr : CellAddr) (v : Word) (s : State), s.Live → Memory.wf s.mem = true →
    ∃ t, runCommand (.poke addr v) s = .next t ∧ Memory.read t.mem addr.toNat = v ∧
      (∀ a, a ≠ addr.toNat → Memory.read t.mem a = Memory.read s.mem a) ∧
      t = { s with mem := t.mem, results := ⟨.ok, s.faultCode, s.faultPos⟩ :: s.results }

/-- `peek` (46_host_interface.md; D15): answers the cell and changes nothing; after a `poke` it answers the poked value there
and the old value elsewhere (20_memory.md section 4: a read returns the latest write). -/
def Obligations.PeekReturnsTheLatestWrite : Prop :=
  (∀ (addr : CellAddr) (s : State), s.Live → runCommand (.peek addr) s =
    .next { s with results := ⟨.cell (Memory.read s.mem addr.toNat), s.faultCode, s.faultPos⟩ :: s.results }) ∧
  (∀ (addr addr' : CellAddr) (v : Word) (s : State), s.Live → Memory.wf s.mem = true →
    ∃ t u, runCommand (.poke addr v) s = .next t ∧ runCommand (.peek addr') t = .next u ∧
      u.lastAnswer = some (.cell (if addr' = addr then v else Memory.read s.mem addr'.toNat)))

/-- `serialize` (46_host_interface.md; D16, D17): exactly 262144 bytes, the two bytes of cell `a` at offsets 2a and 2a+1 in the
configured order; a pure read. -/
def Obligations.SerializeReturnsEveryCell : Prop :=
  ∀ s : State, s.Live → ∃ bytes : List Byte,
    runCommand .serialize s = .next { s with results := ⟨.image bytes, s.faultCode, s.faultPos⟩ :: s.results } ∧
    bytes.length = 262144 ∧
    (∀ a, a < 131072 → s.cfg.byteOrder = .little →
      bytes[2 * a]? = some ((Memory.read s.mem a).extractLsb' 0 8) ∧
      bytes[2 * a + 1]? = some ((Memory.read s.mem a).extractLsb' 8 8)) ∧
    (∀ a, a < 131072 → s.cfg.byteOrder = .big →
      bytes[2 * a]? = some ((Memory.read s.mem a).extractLsb' 8 8) ∧
      bytes[2 * a + 1]? = some ((Memory.read s.mem a).extractLsb' 0 8))

/-- Which command writes which cells (20_memory.md section 1): an emission its words at the cursor, `poke` its cell, `reset()`
every cell, the others none; so the cells that the address operands name are untouched. -/
def Obligations.CommandsWriteOnlyTheirCells : Prop :=
  ∀ (c : Command) (s t : State) (a : Nat), runCommand c s = .next t → c ≠ .reset →
    (∀ addr v, c = .poke addr v → a ≠ addr.toNat) →
    (a < s.cursor.toNat ∨ s.cursor.toNat + c.wordCount ≤ a) →
    Memory.read t.mem a = Memory.read s.mem a

/-- The cursor (10_state.md sections 3 and 10): outside `patchSeek`, `patchEnd` and `reset()` a command advances it by its word
count, or not at all where it raised an error; so while `ACTIVE` is 0 it never decreases but by `reset()`. -/
def Obligations.CursorAdvancesByTheWordCount : Prop :=
  ∀ (c : Command) (s t : State), runCommand c s = .next t → c ≠ .reset →
    ((∀ pos, c ≠ .patchSeek pos) → c ≠ .patchEnd →
      t.cursor.toNat = s.cursor.toNat + c.wordCount ∨ (t.cursor = s.cursor ∧ ∃ e, t.lastAnswer = some (.error e))) ∧
    (s.active = false → s.cursor.toNat ≤ t.cursor.toNat)

/-! ### The machine -/

/-- When the words at the cursor decode to an instruction, the step that runs it is `exec` of it, with what the step adds: a
model fault of a live block leaves the faulted state, and a faulted block stops. The commands behind it stay to be issued.
(That the caller's commands stand in a list is the model's choice, log entry 1.) -/
def Obligations.StepRunsTheDecodedInstruction : Prop :=
  ∀ (s : State) (nbits w : Nat) (i : Instr) (rest : List Word),
    decodeAt s.cfg.pcIndex s.cursor (tableWords nbits w) = .ok (i, rest) →
    (∀ t, exec i s = .next t → step (s.withFetchWord nbits w) = .next t) ∧
    (∀ f, exec i s = .fault f → s.Live → step (s.withFetchWord nbits w) = .next (s.enterFaulted f)) ∧
    (∀ f, exec i s = .fault f → ¬ s.Live → step (s.withFetchWord nbits w) = .fault f)

/-- One step performs exactly the next command of the caller, in order; with none issued nothing changes (R7). -/
def Obligations.StepPerformsOneCommand : Prop :=
  ∀ s : State,
    (s.pending = [] → step s = .next s) ∧
    (∀ c rest, s.pending = c :: rest →
      (∀ t, runCommand c { s with pending := rest } = .next t → step s = .next t ∧ t.pending = rest ∧
        t.results.length = s.results.length + 1 ∧ t.results.tail = s.results) ∧
      (∀ r, step s ≠ .refused r))

/-- No step changes the configuration (10_state.md section 1, section 7; D8). -/
def Obligations.ConfigurationNeverChanges : Prop :=
  ∀ s t : State, step s = .next t → t.cfg = s.cfg

/-- The invariants hold after power-on in every configuration, and after reset. -/
def Obligations.PowerOnSatisfiesTheInvariants : Prop :=
  (∀ cfg : Config, (State.powerOn cfg).Inv) ∧ State.reset.Inv

/-- Every step from any state that meets the invariants leaves one that meets them: memory in canonical form, the cursor and a
live `SAVED` within 0 .. 131072, `FAULT_CODE` 0 in COMPAT, `FAULT_POS` within range and 0 without an error (10_state.md
section 10). -/
def Obligations.EveryStepKeepsTheInvariants : Prop :=
  ∀ s t : State, s.Inv → step s = .next t → t.Inv
end

