-- ==== Sys2Proof/Laws/Memory.lean ====
section
/-!
SUPPORT. Addressable Memory (R11, R53, R59): a read returns the latest write, a write leaves every other cell alone and
keeps the canonical form, and equal memories are equal lists.
-/
namespace Sys2Proof.Machine

@[simp] theorem Memory.read_nil (a : Nat) : Memory.read [] a = Memory.unlisted := rfl

theorem Memory.read_cons (b : Nat) (w : Word) (rest : Memory) (a : Nat) :
    Memory.read ((b, w) :: rest) a = if a = b then w else Memory.read rest a := rfl

@[simp] theorem Memory.wfFrom_nil (low : Nat) : Memory.wfFrom low [] = true := rfl

theorem Memory.wfFrom_cons {low a : Nat} {w : Word} {rest : Memory} :
    Memory.wfFrom low ((a, w) :: rest) = true ↔
      low ≤ a ∧ a < memWords ∧ w ≠ Memory.unlisted ∧ Memory.wfFrom (a + 1) rest = true := by
  simp [Memory.wfFrom, and_assoc]

theorem Memory.wfFrom_mono {low low' : Nat} {m : Memory} (hle : low' ≤ low) (h : Memory.wfFrom low m = true) :
    Memory.wfFrom low' m = true := by
  cases m with
  | nil => rfl
  | cons c rest =>
    obtain ⟨a, w⟩ := c
    rw [Memory.wfFrom_cons] at h ⊢
    exact ⟨by omega, h.2⟩

/-- Below the first listed address every cell is unlisted. -/
theorem Memory.read_of_lt {low a : Nat} {m : Memory} (h : Memory.wfFrom low m = true) (ha : a < low) :
    Memory.read m a = Memory.unlisted := by
  induction m generalizing low with
  | nil => rfl
  | cons c rest ih =>
    obtain ⟨b, w⟩ := c
    obtain ⟨hlow, -, -, hrest⟩ := Memory.wfFrom_cons.mp h
    rw [Memory.read_cons, if_neg (by omega)]
    exact ih hrest (by omega)

theorem Memory.read_write_ne {a b : Nat} (hne : b ≠ a) (m : Memory) (v : Word) :
    Memory.read (Memory.write m a v) b = Memory.read m b := by
  induction m with
  | nil => by_cases hv : v = Memory.unlisted <;> simp [Memory.write, hv, Memory.read_cons, hne]
  | cons c rest ih =>
    obtain ⟨d, w⟩ := c
    unfold Memory.write
    split
    · split <;> simp [Memory.read_cons, hne]
    · split
      · subst a
        split <;> simp [Memory.read_cons, hne]
      · simp [Memory.read_cons, ih]

theorem Memory.read_write_same_from {low : Nat} {m : Memory} (h : Memory.wfFrom low m = true) (a : Nat) (v : Word) :
    Memory.read (Memory.write m a v) a = v := by
  induction m generalizing low with
  | nil => by_cases hv : v = Memory.unlisted <;> simp [Memory.write, hv, Memory.read_cons]
  | cons c rest ih =>
    obtain ⟨b, w⟩ := c
    obtain ⟨-, -, -, hrest⟩ := Memory.wfFrom_cons.mp h
    unfold Memory.write
    split
    · rename_i hab
      split
      · rename_i hv
        rw [Memory.read_cons, if_neg (by omega), hv]
        exact Memory.read_of_lt hrest (by omega)
      · simp [Memory.read_cons]
    · split
      · subst a
        split
        · rename_i hv
          rw [hv]
          exact Memory.read_of_lt hrest (by omega)
        · simp [Memory.read_cons]
      · rename_i hne
        rw [Memory.read_cons, if_neg hne]
        exact ih hrest

/-- A read after a write to the same cell gives the value written (R59). -/
theorem Memory.read_write_same {m : Memory} (h : Memory.wf m = true) (a : Nat) (v : Word) :
    Memory.read (Memory.write m a v) a = v :=
  Memory.read_write_same_from h a v

theorem Memory.wfFrom_write {low a : Nat} {m : Memory} (h : Memory.wfFrom low m = true) (hlow : low ≤ a)
    (ha : a < memWords) (v : Word) : Memory.wfFrom low (Memory.write m a v) = true := by
  induction m generalizing low with
  | nil =>
    by_cases hv : v = Memory.unlisted
    · simp [Memory.write, hv]
    · rw [Memory.write, if_neg hv, Memory.wfFrom_cons]
      exact ⟨hlow, ha, hv, rfl⟩
  | cons c rest ih =>
    obtain ⟨b, w⟩ := c
    have hc := Memory.wfFrom_cons.mp h
    unfold Memory.write
    split
    · rename_i hab
      split
      · exact h
      · rename_i hv
        rw [Memory.wfFrom_cons, Memory.wfFrom_cons]
        exact ⟨hlow, ha, hv, by omega, hc.2.1, hc.2.2.1, hc.2.2.2⟩
    · split
      · subst a
        split
        · exact Memory.wfFrom_mono (by omega) hc.2.2.2
        · rename_i hv
          rw [Memory.wfFrom_cons]
          exact ⟨hlow, ha, hv, hc.2.2.2⟩
      · rw [Memory.wfFrom_cons]
        exact ⟨hc.1, hc.2.1, hc.2.2.1, ih hc.2.2.2 (by omega)⟩

/-- Every write inside the address space keeps the canonical form. -/
theorem Memory.wf_write {m : Memory} (h : Memory.wf m = true) {a : Nat} (ha : a < memWords) (v : Word) :
    Memory.wf (Memory.write m a v) = true :=
  Memory.wfFrom_write h (Nat.zero_le a) ha v

@[simp] theorem Memory.wf_nil : Memory.wf [] = true := rfl

theorem Memory.ext_from {low : Nat} {m m' : Memory} (h : Memory.wfFrom low m = true) (h' : Memory.wfFrom low m' = true)
    (hr : ∀ a, Memory.read m a = Memory.read m' a) : m = m' := by
  induction m generalizing low m' with
  | nil =>
    cases m' with
    | nil => rfl
    | cons c rest =>
      obtain ⟨b, w⟩ := c
      have hb := hr b
      rw [Memory.read_cons, if_pos rfl] at hb
      exact absurd hb.symm (Memory.wfFrom_cons.mp h').2.2.1
  | cons c rest ih =>
    obtain ⟨b, w⟩ := c
    have hc := Memory.wfFrom_cons.mp h
    cases m' with
    | nil =>
      have hb := hr b
      rw [Memory.read_cons, if_pos rfl] at hb
      exact absurd hb hc.2.2.1
    | cons c' rest' =>
      obtain ⟨b', w'⟩ := c'
      have hc' := Memory.wfFrom_cons.mp h'
      have hbb : b = b' := by
        rcases Nat.lt_trichotomy b b' with hlt | heq | hgt
        · have hb := hr b
          rw [Memory.read_cons, if_pos rfl, Memory.read_cons, if_neg (by omega),
            Memory.read_of_lt hc'.2.2.2 (by omega)] at hb
          exact absurd hb hc.2.2.1
        · exact heq
        · have hb := hr b'
          rw [Memory.read_cons, if_neg (by omega), Memory.read_of_lt hc.2.2.2 (by omega), Memory.read_cons,
            if_pos rfl] at hb
          exact absurd hb.symm hc'.2.2.1
      subst hbb
      have hw : w = w' := by simpa [Memory.read_cons] using hr b
      subst hw
      congr 1
      refine ih hc.2.2.2 hc'.2.2.2 fun a => ?_
      by_cases hab : a = b
      · rw [hab, Memory.read_of_lt hc.2.2.2 (by omega), Memory.read_of_lt hc'.2.2.2 (by omega)]
      · simpa [Memory.read_cons, hab] using hr a

/-- Memories in canonical form that read the same are the same. -/
theorem Memory.ext {m m' : Memory} (h : Memory.wf m = true) (h' : Memory.wf m' = true)
    (hr : ∀ a, Memory.read m a = Memory.read m' a) : m = m' :=
  Memory.ext_from h h' hr

/-- What any cell reads as after a write. -/
theorem Memory.read_write {m : Memory} (h : Memory.wf m = true) (a b : Nat) (v : Word) :
    Memory.read (Memory.write m a v) b = if b = a then v else Memory.read m b := by
  split
  · rename_i hba
    rw [hba, Memory.read_write_same h]
  · rename_i hba
    exact Memory.read_write_ne hba m v

end Sys2Proof.Machine
end

