-- ==== Sys2Proof/Laws/State.lean ====
section
/-!
SUPPORT. What each named update of the state does to each field of it.
-/
namespace Sys2Proof.Machine

@[simp] theorem State.answer_cfg (s : State) (a : Answer) : (s.answer a).cfg = s.cfg := rfl
@[simp] theorem State.answer_mem (s : State) (a : Answer) : (s.answer a).mem = s.mem := rfl
@[simp] theorem State.answer_cursor (s : State) (a : Answer) : (s.answer a).cursor = s.cursor := rfl
@[simp] theorem State.answer_saved (s : State) (a : Answer) : (s.answer a).saved = s.saved := rfl
@[simp] theorem State.answer_active (s : State) (a : Answer) : (s.answer a).active = s.active := rfl
@[simp] theorem State.answer_faultCode (s : State) (a : Answer) : (s.answer a).faultCode = s.faultCode := rfl
@[simp] theorem State.answer_faultPos (s : State) (a : Answer) : (s.answer a).faultPos = s.faultPos := rfl
@[simp] theorem State.answer_faulted (s : State) (a : Answer) : (s.answer a).faulted = s.faulted := rfl
@[simp] theorem State.answer_pending (s : State) (a : Answer) : (s.answer a).pending = s.pending := rfl
@[simp] theorem State.answer_results (s : State) (a : Answer) : (s.answer a).results = ⟨a, s.faultCode, s.faultPos⟩ :: s.results := rfl
@[simp] theorem State.answer_freeCount (s : State) (a : Answer) : (s.answer a).freeCount = s.freeCount := rfl

@[simp] theorem State.recordError_cfg (s : State) (kind : ErrorKind) : (s.recordError kind).cfg = s.cfg := rfl
@[simp] theorem State.recordError_mem (s : State) (kind : ErrorKind) : (s.recordError kind).mem = s.mem := rfl
@[simp] theorem State.recordError_cursor (s : State) (kind : ErrorKind) : (s.recordError kind).cursor = s.cursor := rfl
@[simp] theorem State.recordError_saved (s : State) (kind : ErrorKind) : (s.recordError kind).saved = s.saved := rfl
@[simp] theorem State.recordError_active (s : State) (kind : ErrorKind) : (s.recordError kind).active = s.active := rfl
@[simp] theorem State.recordError_faultCode (s : State) (kind : ErrorKind) : (s.recordError kind).faultCode = if s.faultCode = 0#2 then kind.code else s.faultCode := rfl
@[simp] theorem State.recordError_faultPos (s : State) (kind : ErrorKind) : (s.recordError kind).faultPos = if s.faultCode = 0#2 then s.cursor else s.faultPos := rfl
@[simp] theorem State.recordError_faulted (s : State) (kind : ErrorKind) : (s.recordError kind).faulted = s.faulted := rfl
@[simp] theorem State.recordError_pending (s : State) (kind : ErrorKind) : (s.recordError kind).pending = s.pending := rfl
@[simp] theorem State.recordError_results (s : State) (kind : ErrorKind) : (s.recordError kind).results = s.results := rfl
@[simp] theorem State.recordError_freeCount (s : State) (kind : ErrorKind) : (s.recordError kind).freeCount = s.freeCount := rfl

@[simp] theorem State.openPatch_cfg (s : State) : (s.openPatch).cfg = s.cfg := rfl
@[simp] theorem State.openPatch_mem (s : State) : (s.openPatch).mem = s.mem := rfl
@[simp] theorem State.openPatch_cursor (s : State) : (s.openPatch).cursor = s.cursor := rfl
@[simp] theorem State.openPatch_saved (s : State) : (s.openPatch).saved = s.cursor := rfl
@[simp] theorem State.openPatch_active (s : State) : (s.openPatch).active = true := rfl
@[simp] theorem State.openPatch_faultCode (s : State) : (s.openPatch).faultCode = s.faultCode := rfl
@[simp] theorem State.openPatch_faultPos (s : State) : (s.openPatch).faultPos = s.faultPos := rfl
@[simp] theorem State.openPatch_faulted (s : State) : (s.openPatch).faulted = s.faulted := rfl
@[simp] theorem State.openPatch_pending (s : State) : (s.openPatch).pending = s.pending := rfl
@[simp] theorem State.openPatch_results (s : State) : (s.openPatch).results = s.results := rfl
@[simp] theorem State.openPatch_freeCount (s : State) : (s.openPatch).freeCount = s.freeCount := rfl

@[simp] theorem State.closePatch_cfg (s : State) : (s.closePatch).cfg = s.cfg := rfl
@[simp] theorem State.closePatch_mem (s : State) : (s.closePatch).mem = s.mem := rfl
@[simp] theorem State.closePatch_cursor (s : State) : (s.closePatch).cursor = s.saved := rfl
@[simp] theorem State.closePatch_saved (s : State) : (s.closePatch).saved = s.saved := rfl
@[simp] theorem State.closePatch_active (s : State) : (s.closePatch).active = false := rfl
@[simp] theorem State.closePatch_faultCode (s : State) : (s.closePatch).faultCode = s.faultCode := rfl
@[simp] theorem State.closePatch_faultPos (s : State) : (s.closePatch).faultPos = s.faultPos := rfl
@[simp] theorem State.closePatch_faulted (s : State) : (s.closePatch).faulted = s.faulted := rfl
@[simp] theorem State.closePatch_pending (s : State) : (s.closePatch).pending = s.pending := rfl
@[simp] theorem State.closePatch_results (s : State) : (s.closePatch).results = s.results := rfl
@[simp] theorem State.closePatch_freeCount (s : State) : (s.closePatch).freeCount = s.freeCount := rfl

@[simp] theorem State.seek_cfg (s : State) (pos : CellAddr) : (s.seek pos).cfg = s.cfg := rfl
@[simp] theorem State.seek_mem (s : State) (pos : CellAddr) : (s.seek pos).mem = s.mem := rfl
@[simp] theorem State.seek_cursor (s : State) (pos : CellAddr) : (s.seek pos).cursor = pos.setWidth 18 := rfl
@[simp] theorem State.seek_saved (s : State) (pos : CellAddr) : (s.seek pos).saved = s.saved := rfl
@[simp] theorem State.seek_active (s : State) (pos : CellAddr) : (s.seek pos).active = s.active := rfl
@[simp] theorem State.seek_faultCode (s : State) (pos : CellAddr) : (s.seek pos).faultCode = s.faultCode := rfl
@[simp] theorem State.seek_faultPos (s : State) (pos : CellAddr) : (s.seek pos).faultPos = s.faultPos := rfl
@[simp] theorem State.seek_faulted (s : State) (pos : CellAddr) : (s.seek pos).faulted = s.faulted := rfl
@[simp] theorem State.seek_pending (s : State) (pos : CellAddr) : (s.seek pos).pending = s.pending := rfl
@[simp] theorem State.seek_results (s : State) (pos : CellAddr) : (s.seek pos).results = s.results := rfl
@[simp] theorem State.seek_freeCount (s : State) (pos : CellAddr) : (s.seek pos).freeCount = s.freeCount := rfl

@[simp] theorem State.enterFaulted_cfg (s : State) (f : Fault) : (s.enterFaulted f).cfg = s.cfg := rfl
@[simp] theorem State.enterFaulted_mem (s : State) (f : Fault) : (s.enterFaulted f).mem = s.mem := rfl
@[simp] theorem State.enterFaulted_cursor (s : State) (f : Fault) : (s.enterFaulted f).cursor = s.cursor := rfl
@[simp] theorem State.enterFaulted_saved (s : State) (f : Fault) : (s.enterFaulted f).saved = s.saved := rfl
@[simp] theorem State.enterFaulted_active (s : State) (f : Fault) : (s.enterFaulted f).active = s.active := rfl
@[simp] theorem State.enterFaulted_faultCode (s : State) (f : Fault) : (s.enterFaulted f).faultCode = s.faultCode := rfl
@[simp] theorem State.enterFaulted_faultPos (s : State) (f : Fault) : (s.enterFaulted f).faultPos = s.faultPos := rfl
@[simp] theorem State.enterFaulted_faulted (s : State) (f : Fault) : (s.enterFaulted f).faulted = some f := rfl
@[simp] theorem State.enterFaulted_pending (s : State) (f : Fault) : (s.enterFaulted f).pending = s.pending := rfl
@[simp] theorem State.enterFaulted_results (s : State) (f : Fault) : (s.enterFaulted f).results = ⟨.modelFault f, s.faultCode, s.faultPos⟩ :: s.results := rfl
@[simp] theorem State.enterFaulted_freeCount (s : State) (f : Fault) : (s.enterFaulted f).freeCount = s.freeCount := rfl

@[simp] theorem State.setCell_cfg (s : State) (a : Nat) (v : Word) : (s.setCell a v).cfg = s.cfg := rfl
@[simp] theorem State.setCell_mem (s : State) (a : Nat) (v : Word) : (s.setCell a v).mem = Memory.write s.mem a v := rfl
@[simp] theorem State.setCell_cursor (s : State) (a : Nat) (v : Word) : (s.setCell a v).cursor = s.cursor := rfl
@[simp] theorem State.setCell_saved (s : State) (a : Nat) (v : Word) : (s.setCell a v).saved = s.saved := rfl
@[simp] theorem State.setCell_active (s : State) (a : Nat) (v : Word) : (s.setCell a v).active = s.active := rfl
@[simp] theorem State.setCell_faultCode (s : State) (a : Nat) (v : Word) : (s.setCell a v).faultCode = s.faultCode := rfl
@[simp] theorem State.setCell_faultPos (s : State) (a : Nat) (v : Word) : (s.setCell a v).faultPos = s.faultPos := rfl
@[simp] theorem State.setCell_faulted (s : State) (a : Nat) (v : Word) : (s.setCell a v).faulted = s.faulted := rfl
@[simp] theorem State.setCell_pending (s : State) (a : Nat) (v : Word) : (s.setCell a v).pending = s.pending := rfl
@[simp] theorem State.setCell_results (s : State) (a : Nat) (v : Word) : (s.setCell a v).results = s.results := rfl
@[simp] theorem State.setCell_freeCount (s : State) (a : Nat) (v : Word) : (s.setCell a v).freeCount = s.freeCount := rfl

@[simp] theorem State.put_cfg (s : State) (v : Word) : (s.put v).cfg = s.cfg := rfl
@[simp] theorem State.put_mem (s : State) (v : Word) : (s.put v).mem = Memory.write s.mem s.cursor.toNat v := rfl
@[simp] theorem State.put_cursor (s : State) (v : Word) : (s.put v).cursor = s.cursor + 1#18 := rfl
@[simp] theorem State.put_saved (s : State) (v : Word) : (s.put v).saved = s.saved := rfl
@[simp] theorem State.put_active (s : State) (v : Word) : (s.put v).active = s.active := rfl
@[simp] theorem State.put_faultCode (s : State) (v : Word) : (s.put v).faultCode = s.faultCode := rfl
@[simp] theorem State.put_faultPos (s : State) (v : Word) : (s.put v).faultPos = s.faultPos := rfl
@[simp] theorem State.put_faulted (s : State) (v : Word) : (s.put v).faulted = s.faulted := rfl
@[simp] theorem State.put_pending (s : State) (v : Word) : (s.put v).pending = s.pending := rfl
@[simp] theorem State.put_results (s : State) (v : Word) : (s.put v).results = s.results := rfl
@[simp] theorem State.put_freeCount (s : State) (v : Word) : (s.put v).freeCount = s.freeCount := rfl

@[simp] theorem State.cleared_cfg (s : State) : (s.cleared).cfg = s.cfg := rfl
@[simp] theorem State.cleared_mem (s : State) : (s.cleared).mem = [] := rfl
@[simp] theorem State.cleared_cursor (s : State) : (s.cleared).cursor = s.cfg.codeStart.setWidth 18 := rfl
@[simp] theorem State.cleared_saved (s : State) : (s.cleared).saved = Config.freeSaved s.freeCount := rfl
@[simp] theorem State.cleared_active (s : State) : (s.cleared).active = false := rfl
@[simp] theorem State.cleared_faultCode (s : State) : (s.cleared).faultCode = 0#2 := rfl
@[simp] theorem State.cleared_faultPos (s : State) : (s.cleared).faultPos = 0#18 := rfl
@[simp] theorem State.cleared_faulted (s : State) : (s.cleared).faulted = none := rfl
@[simp] theorem State.cleared_pending (s : State) : (s.cleared).pending = s.pending := rfl
@[simp] theorem State.cleared_results (s : State) : (s.cleared).results = s.results := rfl
@[simp] theorem State.cleared_freeCount (s : State) : (s.cleared).freeCount = s.freeCount + 1 := rfl

@[simp] theorem State.issue_cfg (s : State) (c : Command) : (s.issue c).cfg = s.cfg := rfl
@[simp] theorem State.issue_mem (s : State) (c : Command) : (s.issue c).mem = s.mem := rfl
@[simp] theorem State.issue_cursor (s : State) (c : Command) : (s.issue c).cursor = s.cursor := rfl
@[simp] theorem State.issue_saved (s : State) (c : Command) : (s.issue c).saved = s.saved := rfl
@[simp] theorem State.issue_active (s : State) (c : Command) : (s.issue c).active = s.active := rfl
@[simp] theorem State.issue_faultCode (s : State) (c : Command) : (s.issue c).faultCode = s.faultCode := rfl
@[simp] theorem State.issue_faultPos (s : State) (c : Command) : (s.issue c).faultPos = s.faultPos := rfl
@[simp] theorem State.issue_faulted (s : State) (c : Command) : (s.issue c).faulted = s.faulted := rfl
@[simp] theorem State.issue_pending (s : State) (c : Command) : (s.issue c).pending = c :: s.pending := rfl
@[simp] theorem State.issue_results (s : State) (c : Command) : (s.issue c).results = s.results := rfl
@[simp] theorem State.issue_freeCount (s : State) (c : Command) : (s.issue c).freeCount = s.freeCount := rfl

@[simp] theorem State.powerOn_cfg (cfg : Config) : (State.powerOn cfg).cfg = cfg := rfl
@[simp] theorem State.powerOn_mem (cfg : Config) : (State.powerOn cfg).mem = [] := rfl
@[simp] theorem State.powerOn_cursor (cfg : Config) : (State.powerOn cfg).cursor = cfg.codeStart.setWidth 18 := rfl
@[simp] theorem State.powerOn_saved (cfg : Config) : (State.powerOn cfg).saved = 0#18 := rfl
@[simp] theorem State.powerOn_active (cfg : Config) : (State.powerOn cfg).active = false := rfl
@[simp] theorem State.powerOn_faultCode (cfg : Config) : (State.powerOn cfg).faultCode = 0#2 := rfl
@[simp] theorem State.powerOn_faultPos (cfg : Config) : (State.powerOn cfg).faultPos = 0#18 := rfl
@[simp] theorem State.powerOn_faulted (cfg : Config) : (State.powerOn cfg).faulted = none := rfl
@[simp] theorem State.powerOn_pending (cfg : Config) : (State.powerOn cfg).pending = [] := rfl
@[simp] theorem State.powerOn_results (cfg : Config) : (State.powerOn cfg).results = [] := rfl
@[simp] theorem State.powerOn_freeCount (cfg : Config) : (State.powerOn cfg).freeCount = 0 := rfl

end Sys2Proof.Machine
end

