-- ==== Sys2Proof/Laws/WordModel.lean ====
section
/-!
SUPPORT. The compositor bit by bit (R121, R122), and the words of full field lists as the assembly formulas R83 whatever the
cell held before (R125).
-/
namespace Sys2Proof

theorem WordField.lo_add_width_le (F : WordField) : F.lo + F.width ≤ 16 := by cases F <;> decide

theorem WordField.mask_getLsbD (F : WordField) (i : Nat) :
    F.mask.getLsbD i = (decide (F.lo ≤ i) && decide (i < F.lo + F.width)) := by
  have hF := F.lo_add_width_le
  simp only [WordField.mask, BitVec.getLsbD_ofNat, Nat.testBit_mul_two_pow, Nat.testBit_two_pow_sub_one]
  by_cases h : F.lo ≤ i
  · by_cases h2 : i < F.lo + F.width
    · simp [h, h2]; omega
    · simp [h, h2]; omega
  · simp [h]

/-- A bit of a word after `setField`: the value's bit inside the field, the word's own outside it. -/
theorem setField_getLsbD (w : Word) (F : WordField) (v i : Nat) :
    (setField w F v).getLsbD i =
      if F.lo ≤ i ∧ i < F.lo + F.width then v.testBit (i - F.lo) else w.getLsbD i := by
  have hF := F.lo_add_width_le
  simp only [setField, BitVec.getLsbD_or, BitVec.getLsbD_and, BitVec.getLsbD_not, WordField.mask_getLsbD,
    BitVec.getLsbD_ofNat, Nat.testBit_mul_two_pow, Nat.testBit_mod_two_pow]
  by_cases h : F.lo ≤ i
  · by_cases h2 : i < F.lo + F.width
    · have h3 : i < 16 := by omega
      have h4 : i - F.lo < F.width := by omega
      simp [h, h2, h3, h4]
    · have h4 : ¬ i - F.lo < F.width := by omega
      by_cases h3 : i < 16
      · simp [h, h2, h3, h4]
      · simp [h2, h3, BitVec.getLsbD_of_ge w i (by omega)]
  · by_cases h3 : i < 16
    · simp [h, h3]
    · simp [h, h3, BitVec.getLsbD_of_ge w i (by omega)]

/-- A bit of a field's value. -/
theorem getField_testBit (w : Word) (F : WordField) (i : Nat) :
    (getField w F).testBit i = (decide (i < F.width) && w.getLsbD (F.lo + i)) := by
  rw [getField, BitVec.testBit_toNat, BitVec.getLsbD_ushiftRight, BitVec.getLsbD_and, WordField.mask_getLsbD]
  simp [Bool.and_comm]

/-- The word SET, LOAD, STORE and ALU compose is the register view's formula, whatever the cell held. -/
theorem compose_register (prior : Word) (op0 : Code) (opA opN op1 opB : Reg) :
    compose prior [(.opA, opA.toNat), (.opB, opB.toNat), (.opN, opN.toNat), (.op1, op1.toNat), (.op0, op0.toNat)] =
      assembleRegister op0 opA op1 opN opB := by
  apply BitVec.eq_of_getLsbD_eq
  intro i hi
  simp only [compose, setField_getLsbD, assembleRegister, WordField.lo, WordField.width, BitVec.testBit_toNat,
    BitVec.getLsbD_or, BitVec.getLsbD_shiftLeft, BitVec.getLsbD_setWidth]
  interval_cases i <;> simp

/-- The word BRANCH and GOTO compose is the immediate view's formula, whatever the cell held; the immediate is truncated
to six bits. -/
theorem compose_immediate (prior : Word) (op0 : Code) (opA op1 : Reg) (v : Nat) :
    compose prior [(.opA, opA.toNat), (.opimm, v), (.op1, op1.toNat), (.op0, op0.toNat)] =
      assembleImmediate op0 opA op1 (BitVec.ofNat 6 v) := by
  apply BitVec.eq_of_getLsbD_eq
  intro i hi
  simp only [compose, setField_getLsbD, assembleImmediate, WordField.lo, WordField.width, BitVec.testBit_toNat,
    BitVec.getLsbD_or, BitVec.getLsbD_shiftLeft, BitVec.getLsbD_setWidth, BitVec.getLsbD_ofNat]
  interval_cases i <;> simp

end Sys2Proof
end

