-- ==== Sys2Proof/Laws/Ops.lean ====
section
/-!
SUPPORT. What each shared operation can do, said once: the guards, the emission helpers, the ends of a command, and a step.
-/
namespace Sys2Proof.Machine

/-! ### Guards -/

@[simp] theorem whenLive_of_live {s : State} (h : s.faulted = none) (k : State → Out) : whenLive s k = k s := by
  simp [whenLive, h]

theorem whenLive_of_faulted {s : State} {f : Fault} (h : s.faulted = some f) (k : State → Out) :
    whenLive s k = .fault f := by
  simp [whenLive, h]

theorem strictCheck_none (s : State) (k : State → Out) : strictCheck none s k = k s := by
  cases h : s.cfg.mode <;> simp [strictCheck, h]

theorem strictCheck_compat {s : State} (h : s.cfg.mode = .compat) (e? : Option EncodingError) (k : State → Out) :
    strictCheck e? s k = k s := by
  cases e? <;> simp [strictCheck, h]

theorem strictCheck_some {s : State} (h : s.cfg.mode = .strict) (e : EncodingError) (k : State → Out) :
    strictCheck (some e) s k = raise e s := by
  simp [strictCheck, h]

theorem need_fits {n : Nat} {s : State} (h : s.cursor.toNat + n ≤ memWords) (k : State → Out) : need n s k = k s := by
  simp only [need, if_neg (Nat.not_lt.mpr h)]

theorem need_over {n : Nat} {s : State} (h : memWords < s.cursor.toNat + n) (k : State → Out) :
    need n s k = overrun s := by
  simp only [need, if_pos h]

theorem putWord_fits {s : State} (h : s.cursor.toNat < memWords) (v : Word) (k : State → Out) :
    putWord v s k = k (s.put v) := by
  simp only [putWord, if_neg (Nat.not_le.mpr h)]

theorem putInsn_fits {s : State} (h : s.cursor.toNat < memWords) (l : List (WordField × Nat)) (k : State → Out) :
    putInsn l s k = k (s.put (compose (Memory.read s.mem s.cursor.toNat) l)) := by
  simp only [putInsn, putWord_fits h]

/-! ### Ends -/

theorem raise_eq_rejected (e : EncodingError) (s : State) : raise e s = .next (s.rejected e) := rfl

theorem overrun_strict {s : State} (h : s.cfg.mode = .strict) :
    overrun s = .next (s.rejected ⟨.bufferOverrun, s.cursor.toNat⟩) := by
  simp [overrun, h, raise_eq_rejected]

theorem overrun_compat {s : State} (h : s.cfg.mode = .compat) : overrun s = .fault .overrun := by
  simp [overrun, h]

/-! ### Emission -/

theorem cursor_add_toNat {c : Cursor} {n : Nat} (h : c.toNat + n ≤ memWords) :
    (c + BitVec.ofNat 18 n).toNat = c.toNat + n := by
  have hm : c.toNat + n ≤ 131072 := h
  rw [BitVec.toNat_add, BitVec.toNat_ofNat]
  omega

theorem put_cursor_toNat {s : State} (h : s.cursor.toNat < memWords) (v : Word) :
    (s.put v).cursor.toNat = s.cursor.toNat + 1 :=
  cursor_add_toNat (n := 1) h

/-- An instruction word alone: what its list composes over any prior content is written. -/
theorem emit_one {s : State} {l : List (WordField × Nat)} {w : Word} (h : s.cursor.toNat + 1 ≤ memWords)
    (hw : ∀ prior, compose prior l = w) : putInsn l s done = .next (s.emitted [w]) := by
  rw [putInsn_fits h, hw]
  rfl

/-- An instruction word and a literal word, and then the rest of the command. -/
theorem emit_two {s : State} {l : List (WordField × Nat)} {w : Word} (h : s.cursor.toNat + 2 ≤ memWords)
    (hw : ∀ prior, compose prior l = w) (v : Word) (k : State → Out) :
    (putInsn l s fun s => putWord v s k) = k ((s.put w).put v) := by
  have h1 : s.cursor.toNat < memWords := by omega
  rw [putInsn_fits h1, hw, putWord_fits (by rw [put_cursor_toNat h1]; omega)]

theorem put_put_done {s : State} (h : s.cursor.toNat + 2 ≤ memWords) (w v : Word) :
    done ((s.put w).put v) = .next (s.emitted [w, v]) := by
  have h1 := put_cursor_toNat (s := s) (by omega) w
  have h2 : s.cursor + 1#18 + 1#18 = s.cursor + BitVec.ofNat 18 2 := by rw [BitVec.add_assoc]; rfl
  simp only [done, State.put, State.answer, State.emitted, writeWords, List.length_cons, List.length_nil] at h1 ⊢
  rw [h1, h2]

theorem put_four_done {s : State} (h : s.cursor.toNat + 4 ≤ memWords) (w v x y : Word) :
    done ((((s.put w).put v).put x).put y) = .next (s.emitted [w, v, x, y]) := by
  have h1 := put_cursor_toNat (s := s) (by omega) w
  have h2 := put_cursor_toNat (s := s.put w) (by omega) v
  have h3 := put_cursor_toNat (s := (s.put w).put v) (by omega) x
  have h4 : s.cursor + 1#18 + 1#18 + 1#18 + 1#18 = s.cursor + BitVec.ofNat 18 4 := by
    rw [BitVec.add_assoc, BitVec.add_assoc, BitVec.add_assoc]; rfl
  rw [h1] at h2
  rw [h2] at h3
  simp only [done, State.put, State.answer, State.emitted, writeWords, List.length_cons, List.length_nil] at h1 h2 h3 ⊢
  rw [h3, h2, h1, h4]

/-! ### A step -/

theorem step_of_empty {s : State} (h : s.pending = []) : step s = .next s := by
  simp [step, nextCommand, h]

theorem step_of_pending {s : State} {c : Command} {rest : List Command} (h : s.pending = c :: rest) :
    step s = settle { s with pending := rest } (runCommand c { s with pending := rest }) := by
  simp [step, nextCommand, h]

/-- What a next state after `settle` is: the command's own, or the faulted state of a live block. -/
theorem settle_next {s t : State} {o : Out} (h : settle s o = .next t) :
    o = .next t ∨ ∃ f, o = .fault f ∧ s.faulted = none ∧ t = s.enterFaulted f := by
  cases o with
  | next u => exact .inl h
  | refused r => simp [settle] at h
  | fault f =>
    cases hf : s.faulted with
    | some g => simp [settle, hf] at h
    | none =>
      simp only [settle, hf, Option.isSome_none, Bool.false_eq_true, if_false, Host.Outcome.next.injEq] at h
      exact .inr ⟨f, rfl, rfl, h.symm⟩

/-- A call that emits a row of the opcode table is that row's meaning. -/
theorem runCommand_commandOf (i : Instr) (s : State) : runCommand (commandOf i) s = exec i s := by
  cases i <;> rfl

end Sys2Proof.Machine
end

