-- ==== Sys2Proof/Laws/Emission.lean ====
section
/-!
SUPPORT. The emission operations said once: what the checks in front of one decide, the words each form writes over any prior
content, and the cells after a list of words is written.
-/
namespace Sys2Proof.Machine

/-! ### The cells after an emission -/

theorem writeWords_read_outside (m : Memory) (a : Nat) (ws : List Word) (b : Nat) (h : b < a ∨ a + ws.length ≤ b) :
    Memory.read (writeWords m a ws) b = Memory.read m b := by
  induction ws generalizing m a with
  | nil => rfl
  | cons w ws ih =>
    rw [List.length_cons] at h
    rw [writeWords, ih _ _ (by omega), Memory.read_write_ne (by omega)]

theorem writeWords_wf {m : Memory} {a : Nat} {ws : List Word} (h : Memory.wf m = true)
    (hf : a + ws.length ≤ memWords) : Memory.wf (writeWords m a ws) = true := by
  induction ws generalizing m a with
  | nil => exact h
  | cons w ws ih =>
    rw [List.length_cons] at hf
    exact ih (Memory.wf_write h (by omega) _) (by omega)

theorem writeWords_read_inside {m : Memory} {a : Nat} {ws : List Word} (h : Memory.wf m = true)
    (hf : a + ws.length ≤ memWords) (k : Nat) (hk : k < ws.length) :
    Memory.read (writeWords m a ws) (a + k) = ws[k] := by
  induction ws generalizing m a k with
  | nil => exact absurd hk (Nat.not_lt_zero k)
  | cons w ws ih =>
    rw [List.length_cons] at hf hk
    rw [writeWords]
    cases k with
    | zero =>
      rw [writeWords_read_outside _ _ _ _ (by omega)]
      exact Memory.read_write_same h a w
    | succ k =>
      have hwf : Memory.wf (Memory.write m a w) = true := Memory.wf_write h (by omega) w
      have hr := ih (a := a + 1) hwf (by omega) k (by omega)
      rw [show a + (k + 1) = a + 1 + k from by omega, hr]
      rfl

/-- Reading back as many cells as were written gives the words written. -/
theorem readWords_writeWords {m : Memory} {a : Nat} {ws : List Word} (h : Memory.wf m = true)
    (hf : a + ws.length ≤ memWords) : readWords (writeWords m a ws) a ws.length = ws := by
  apply List.ext_getElem
  · simp [readWords]
  · intro k h1 h2
    simp [readWords, writeWords_read_inside h hf k h2]

/-! ### The words -/

theorem compose_set (prior : Word) (reg : Reg) :
    compose prior [(.opA, reg.toNat), (.opB, reg.toNat), (.opN, 1), (.op1, 4), (.op0, 9)] =
      assembleRegister 9#4 reg 4#3 1#3 reg :=
  compose_register prior 9#4 reg 1#3 4#3 reg

theorem compose_load (prior : Word) (reg : Reg) :
    compose prior [(.opA, reg.toNat), (.opB, reg.toNat), (.opN, 2), (.op1, 4), (.op0, 9)] =
      assembleRegister 9#4 reg 4#3 2#3 reg :=
  compose_register prior 9#4 reg 2#3 4#3 reg

theorem compose_store (prior : Word) (reg : Reg) :
    compose prior [(.opA, reg.toNat), (.opB, reg.toNat), (.opN, 3), (.op1, 4), (.op0, 13)] =
      assembleRegister 13#4 reg 4#3 3#3 reg :=
  compose_register prior 13#4 reg 3#3 4#3 reg

theorem compose_alu (prior : Word) (op : Code) (dst src : Reg) :
    compose prior [(.opA, dst.toNat), (.opB, src.toNat), (.opN, 0), (.op1, 4), (.op0, op.toNat)] =
      assembleRegister op dst 4#3 0#3 src :=
  compose_register prior op dst 0#3 4#3 src

theorem compose_goto (prior : Word) (pcIndex : Reg) (high : Nat) :
    compose prior [(.opA, pcIndex.toNat), (.opimm, high), (.op1, 2), (.op0, 15)] =
      assembleImmediate 15#4 pcIndex 2#3 (BitVec.ofNat 6 high) :=
  compose_immediate prior 15#4 pcIndex 2#3 high

theorem literalOf_eq (address : Addr) : literalOf address = address.setWidth 16 := by
  unfold literalOf
  apply BitVec.eq_of_toNat_eq
  simp

/-! ### The checks in front of an emission -/

/-- An emission guarded by an operand check and the space check, whose body emits `ws` where they fit: in STRICT the operand
error first; otherwise the words, or the overrun of the mode. -/
theorem guarded_emission {s : State} (hl : s.faulted = none) (e? : Option EncodingError) (ws : List Word)
    (k : State → Out) (hk : s.cursor.toNat + ws.length ≤ memWords → k s = .next (s.emitted ws)) :
    whenLive s (fun s' => strictCheck e? s' fun s' => need ws.length s' k) =
      match s.cfg.mode, e? with
      | .strict, some e => .next (s.rejected e)
      | .strict, none =>
        if s.cursor.toNat + ws.length ≤ memWords then .next (s.emitted ws)
        else .next (s.rejected ⟨.bufferOverrun, s.cursor.toNat⟩)
      | .compat, _ => if s.cursor.toNat + ws.length ≤ memWords then .next (s.emitted ws) else .fault .overrun := by
  rw [whenLive_of_live hl]
  by_cases hf : s.cursor.toNat + ws.length ≤ memWords
  · cases hm : s.cfg.mode <;> cases e? <;>
      simp only [strictCheck, hm, need_fits hf, hk hf, raise_eq_rejected, if_pos hf]
  · have ho : memWords < s.cursor.toNat + ws.length := by omega
    cases hm : s.cfg.mode <;> cases e? <;>
      simp only [strictCheck, hm, need_over ho, overrun, raise_eq_rejected, if_neg hf]

/-- A call of `emitAlu` is the shared operation, whether or not its code has a row of the opcode table. -/
theorem runCommand_emitAlu (op : Code) (dst src : Reg) (s : State) :
    runCommand (.emitAlu op dst src) s = emitAlu op dst src s := by
  have hc : ∀ n, op.toNat = n → op = BitVec.ofNat 4 n := fun n hn => by rw [← hn]; simp
  unfold runCommand
  simp only
  split
  · rename_i i h
    unfold aluInstr? at h
    split at h <;> simp at h <;> subst h <;> rename_i h <;> rw [hc _ h] <;> rfl
  · rfl

/-- The same of `emitBranch`. -/
theorem runCommand_emitBranch (condition : Code) (target : Addr) (s : State) :
    runCommand (.emitBranch condition target) s = emitBranch condition target s := by
  have hc : ∀ n, condition.toNat = n → condition = BitVec.ofNat 4 n := fun n hn => by rw [← hn]; simp
  unfold runCommand
  simp only
  split
  · rename_i i h
    unfold branchInstr? at h
    split at h <;> simp at h <;> subst h <;> rename_i h <;> rw [hc _ h] <;> rfl
  · rfl

theorem aluError?_eq (op : Code) :
    aluError? op = if op.toNat ∈ [5, 7, 14, 15] then some ⟨.reservedOpcode, op.toNat⟩ else none := by
  have h : Code.aluReserved op = decide (op.toNat ∈ [5, 7, 14, 15]) := by revert op; decide
  unfold aluError?
  rw [h]
  simp

end Sys2Proof.Machine
end

