-- ==== Sys2Proof/Laws/PerInstr.lean ====
section
/-!
SUPPORT. Per instruction: the encoder gives as many words as the row's `words` (R80, R86).
-/
namespace Sys2Proof.Laws.EncodeLength

/-- The encoding of `i` has the number of words its row has, at every position and for every `PC_INDEX`. -/
def Statement (i : Instr) : Prop := ∀ (pcIndex : Reg) (pos : Cursor), (encodeAt pcIndex pos i).length = i.wordCount

/-- A branch is one word in either direction. -/
theorem encodeBranch_length (pcIndex : Reg) (pos : Cursor) (condition : Code) (target : Addr) :
    (encodeBranch pcIndex pos condition target).length = 1 := by
  unfold encodeBranch; split <;> rfl

theorem set (reg : Reg) (value : Word) : Statement (.set reg value) := fun _ _ => rfl
theorem load (reg : Reg) (address : Addr) : Statement (.load reg address) := fun _ _ => rfl
theorem store (address : Addr) (reg : Reg) : Statement (.store address reg) := fun _ _ => rfl
theorem aluAdd (dst : Reg) (src : Reg) : Statement (.aluAdd dst src) := fun _ _ => rfl
theorem aluAdc (dst : Reg) (src : Reg) : Statement (.aluAdc dst src) := fun _ _ => rfl
theorem aluSub (dst : Reg) (src : Reg) : Statement (.aluSub dst src) := fun _ _ => rfl
theorem aluSbc (dst : Reg) (src : Reg) : Statement (.aluSbc dst src) := fun _ _ => rfl
theorem aluCmp (dst : Reg) (src : Reg) : Statement (.aluCmp dst src) := fun _ _ => rfl
theorem aluNeg (dst : Reg) (src : Reg) : Statement (.aluNeg dst src) := fun _ _ => rfl
theorem aluXor (dst : Reg) (src : Reg) : Statement (.aluXor dst src) := fun _ _ => rfl
theorem aluLoad (dst : Reg) (src : Reg) : Statement (.aluLoad dst src) := fun _ _ => rfl
theorem aluOr (dst : Reg) (src : Reg) : Statement (.aluOr dst src) := fun _ _ => rfl
theorem aluAnd (dst : Reg) (src : Reg) : Statement (.aluAnd dst src) := fun _ _ => rfl
theorem aluTest (dst : Reg) (src : Reg) : Statement (.aluTest dst src) := fun _ _ => rfl
theorem aluStore (dst : Reg) (src : Reg) : Statement (.aluStore dst src) := fun _ _ => rfl
theorem goto (target : Addr) : Statement (.goto target) := fun _ _ => rfl
theorem bne (target : Addr) : Statement (.bne target) := fun pcIndex pos => encodeBranch_length pcIndex pos _ target
theorem beq (target : Addr) : Statement (.beq target) := fun pcIndex pos => encodeBranch_length pcIndex pos _ target
theorem bra (target : Addr) : Statement (.bra target) := fun pcIndex pos => encodeBranch_length pcIndex pos _ target

end Sys2Proof.Laws.EncodeLength
end

