-- ==== Sys2Proof/Tests/Slice0.lean ====
section
/-!
SUPPORT. The model's own tests: ill-formed operands, words written out from the spec's encodings, one step each, and for every
statement with hypotheses a state and operands that meet them. The expected values are those of spec/95_test_vectors.md
(S1 to S9, V1 to V8, P1, P3), of the rules named, or hand calculation from them.
-/
namespace Sys2Proof.Tests
open Sys2Proof Sys2Proof.Machine

/-! ### A small state, and what a test looks at -/

/-- A live block in `mode` with the cursor at `c` and memory zero. -/
def blockAt (mode : Mode) (c : Cursor) : State :=
  { State.powerOn { Config.chosen with mode := mode } with cursor := c }

/-- The same block with a relocation outstanding. -/
def patching (mode : Mode) (c saved : Cursor) : State := { blockAt mode c with active := true, saved := saved }

/-- The next state, where there is one. -/
def nextOf : Out → Option State
  | .next t => some t
  | .fault _ => none
  | .refused _ => none

/-- The fault, where the command ends in one. -/
def faultOf : Out → Option Fault
  | .next _ => none
  | .fault f => some f
  | .refused _ => none

/-- Memory, cursor and answer after a command. -/
def seen (o : Out) : Option (Memory × Cursor × Option Answer) := (nextOf o).map fun t => (t.mem, t.cursor, t.lastAnswer)

/-- The error record and the answer after a command. -/
def recorded (o : Out) : Option (BitVec 2 × Cursor × Option Answer) :=
  (nextOf o).map fun t => (t.faultCode, t.faultPos, t.lastAnswer)

/-- What decoding gives, without the words behind. -/
def decoded (pos : Cursor) (ws : List Word) : Option Instr :=
  match decodeAt 7#3 pos ws with
  | .ok (i, _) => some i
  | .error _ => none

/-- Why decoding rejects. -/
def rejectedAs (pos : Cursor) (ws : List Word) : Option DecodeError :=
  match decodeAt 7#3 pos ws with
  | .ok _ => none
  | .error e => some e

/-! ### WellFormed: each check refuses an operand that does not fit, and accepts the last that does -/

/-- R141, R252: the literal cell holds 16 bits. -/
theorem test_wellFormed_load :
    Instr.wellFormed 0x8000#18 (.load 1#3 65535#32) = true ∧ Instr.wellFormed 0x8000#18 (.load 1#3 65536#32) = false := by decide

/-- R142, R252. -/
theorem test_wellFormed_store :
    Instr.wellFormed 0x8000#18 (.store 65535#32 1#3) = true ∧ Instr.wellFormed 0x8000#18 (.store 65536#32 1#3) = false := by decide

/-- V5: 0x3FFFFF is the last target. -/
theorem test_wellFormed_goto :
    Instr.wellFormed 0x8000#18 (.goto 0x3FFFFF#32) = true ∧ Instr.wellFormed 0x8000#18 (.goto 0x400000#32) = false := by decide

/-- V4: 63 words forward or backward from 0x0101, and no more. -/
theorem test_wellFormed_bne : Instr.wellFormed 0x0100#18 (.bne 0x0140#32) = true ∧
    Instr.wellFormed 0x0100#18 (.bne 0x0141#32) = false ∧
    Instr.wellFormed 0x0100#18 (.bne 0x00C2#32) = true ∧
    Instr.wellFormed 0x0100#18 (.bne 0x00C1#32) = false := by decide

/-- V4: 63 words forward or backward from 0x0101, and no more. -/
theorem test_wellFormed_beq : Instr.wellFormed 0x0100#18 (.beq 0x0140#32) = true ∧
    Instr.wellFormed 0x0100#18 (.beq 0x0141#32) = false ∧
    Instr.wellFormed 0x0100#18 (.beq 0x00C2#32) = true ∧
    Instr.wellFormed 0x0100#18 (.beq 0x00C1#32) = false := by decide

/-- V4: 63 words forward or backward from 0x0101, and no more. -/
theorem test_wellFormed_bra : Instr.wellFormed 0x0100#18 (.bra 0x0140#32) = true ∧
    Instr.wellFormed 0x0100#18 (.bra 0x0141#32) = false ∧
    Instr.wellFormed 0x0100#18 (.bra 0x00C2#32) = true ∧
    Instr.wellFormed 0x0100#18 (.bra 0x00C1#32) = false := by decide

/-! ### Decoding words written out from the spec (R86; V2 to V5) -/

/-- V2 `emitSet(R1, 0x8000)`. -/
theorem test_decode_set : decoded 0x8000#18 [0b1001001100001001#16, 0x8000#16] = some (.set 1#3 0x8000#16) := by decide

/-- V2 `emitLoad(R2, 0x3D22)`. -/
theorem test_decode_load : decoded 0x8000#18 [0b1001010100010010#16, 0x3D22#16] = some (.load 2#3 0x3D22#32) := by decide

/-- V2 `emitStore(0x2810, R1)`. -/
theorem test_decode_store : decoded 0x8002#18 [0b1101001100011001#16, 0x2810#16] = some (.store 0x2810#32 1#3) := by decide

/-- V3 `(R1, R2)`. -/
theorem test_decode_aluAdd : decoded 0x8000#18 [0b0000001100000010#16] = some (.aluAdd 1#3 2#3) := by decide

/-- V3 `(R1, R2)`. -/
theorem test_decode_aluAdc : decoded 0x8000#18 [0b0001001100000010#16] = some (.aluAdc 1#3 2#3) := by decide

/-- V3 `(R1, R2)`. -/
theorem test_decode_aluSub : decoded 0x8000#18 [0b0010001100000010#16] = some (.aluSub 1#3 2#3) := by decide

/-- V3 `(R1, R2)`. -/
theorem test_decode_aluSbc : decoded 0x8000#18 [0b0011001100000010#16] = some (.aluSbc 1#3 2#3) := by decide

/-- V3 `(R1, R2)`. -/
theorem test_decode_aluCmp : decoded 0x8000#18 [0b0100001100000010#16] = some (.aluCmp 1#3 2#3) := by decide

/-- V3 `(R1, R2)`. -/
theorem test_decode_aluNeg : decoded 0x8000#18 [0b0110001100000010#16] = some (.aluNeg 1#3 2#3) := by decide

/-- V3 `(R1, R2)`. -/
theorem test_decode_aluXor : decoded 0x8000#18 [0b1000001100000010#16] = some (.aluXor 1#3 2#3) := by decide

/-- V3 `(R1, R2)`. -/
theorem test_decode_aluLoad : decoded 0x8000#18 [0b1001001100000010#16] = some (.aluLoad 1#3 2#3) := by decide

/-- V3 `(R1, R2)`. -/
theorem test_decode_aluOr : decoded 0x8000#18 [0b1010001100000010#16] = some (.aluOr 1#3 2#3) := by decide

/-- V3 `(R1, R2)`. -/
theorem test_decode_aluAnd : decoded 0x8000#18 [0b1011001100000010#16] = some (.aluAnd 1#3 2#3) := by decide

/-- V3 `(R1, R2)`. -/
theorem test_decode_aluTest : decoded 0x8000#18 [0b1100001100000010#16] = some (.aluTest 1#3 2#3) := by decide

/-- V3 `(R1, R2)`. -/
theorem test_decode_aluStore : decoded 0x8000#18 [0b1101001100000010#16] = some (.aluStore 1#3 2#3) := by decide

/-- V4 0x4E44: four words back from 0x8004. -/
theorem test_decode_bne : decoded 0x8003#18 [0b0100111001000100#16] = some (.bne 0x8000#32) := by decide

/-- V4 0x5E04: four words on from 0x8001. -/
theorem test_decode_beq : decoded 0x8000#18 [0b0101111000000100#16] = some (.beq 0x8005#32) := by decide

/-- P2 0xEE41: the branch to itself. -/
theorem test_decode_bra : decoded 0x8004#18 [0b1110111001000001#16] = some (.bra 0x8004#32) := by decide

/-- V5 0xFE81. -/
theorem test_decode_goto : decoded 0x8003#18 [0b1111111010000001#16, 0x2345#16] = some (.goto 0x12345#32) := by decide

/-! ### Words that stand for no row are rejected by name -/

/-- R89; V3. -/
theorem test_reject_reserved_alu : rejectedAs 0x8000#18 [0x5302#16] = some (.reservedAluCode 5#4) := by decide

/-- R92; V4. -/
theorem test_reject_undefined_condition : rejectedAs 0x8000#18 [0x9E00#16] = some (.undefinedCondition 9#4) := by decide

/-- R95: `opA` and `opB` of a SET are the same register. -/
theorem test_reject_two_registers : rejectedAs 0x8000#18 [0x9509#16, 0#16] = some (.notEmitted) := by decide

/-- R95: `op1` = 7 is no form. -/
theorem test_reject_op1_value : rejectedAs 0x8000#18 [0x91C8#16] = some (.notEmitted) := by decide

/-- R95: `opN` = 4 is no form. -/
theorem test_reject_opn_value : rejectedAs 0x8000#18 [0x9320#16] = some (.notEmitted) := by decide

/-- R95: a branch word names `PC_INDEX` in `opA`. -/
theorem test_reject_other_pc_register : rejectedAs 0x8000#18 [0x4004#16] = some (.notEmitted) := by decide

/-- R80. -/
theorem test_reject_missing_literal : rejectedAs 0x8000#18 [0x9309#16] = some (.missingLiteral) := by decide

theorem test_reject_no_word : rejectedAs 0x8000#18 [] = some (.noWord) := by decide

/-- R190: two words back from cell 1. -/
theorem test_reject_target_below_zero : rejectedAs 0x0000#18 [0xEE42#16] = some (.targetBelowZero) := by decide

theorem test_reject_odd_byte : wordsOfBytes .little [0x09#8, 0x93#8, 0x00#8] = .error .oddByte := rfl

/-- V7: the same cells in either byte order. -/
theorem test_decode_bytes :
    decodeBytes .little 7#3 0x8000#18 [0x09#8, 0x93#8, 0x00#8, 0x80#8] = .ok (.set 1#3 0x8000#16, []) ∧
    decodeBytes .big 7#3 0x8000#18 [0x93#8, 0x09#8, 0x80#8, 0x00#8] = .ok (.set 1#3 0x8000#16, []) := ⟨rfl, rfl⟩

/-- V3: 0x4F01 is an ALU word, not a branch; R93. -/
theorem test_length_and_form :
    lengthOf 0x9309#16 = 2 ∧ lengthOf 0xFE81#16 = 2 ∧ lengthOf 0xC302#16 = 1 ∧ lengthOf 0x4E44#16 = 1 ∧
    formOf 7#3 0x4F01#16 = .alu 4#4 7#3 1#3 := by decide

/-! ### The Word Model (V1) -/

/-- V1; the first value is that of the definition R121, by hand: V1 prints 0xA90D, which clears bit 9 of `opA` as well (log entry 17). -/
theorem test_setField :
    setField 0xABCD#16 .op1 4 = 0xAB0D#16 ∧ setField 0x0000#16 .opB 9 = 0x0001#16 ∧ setField 0xFFFF#16 .op0 0 = 0x0FFF#16 ∧
    setField 0x0000#16 .opN 7 = 0x0038#16 ∧ setField 0x0000#16 .op0 16 = 0x0000#16 := by decide

theorem test_getField :
    getField 0xFE81#16 .op0 = 15 ∧ getField 0xFE81#16 .opA = 7 ∧ getField 0xFE81#16 .op1 = 2 ∧ getField 0xFE81#16 .opimm = 1 := by decide

theorem test_compose : compose 0x0000#16 [(.opimm, 0x2A), (.opB, 1)] = 0x0029#16 ∧
    compose 0xFFFF#16 [(.opA, 7), (.opimm, 31), (.op1, 0), (.op0, 14)] = 0xEE1F#16 := by decide

/-! ### One step of each instruction -/

/-- V2: prior content does not show. -/
theorem test_set :
    seen (exec (.set 1#3 0x8000#16) { blockAt .compat 0x0100#18 with mem := [(0x0100, 0xFFFF#16), (0x0101, 0xFFFF#16)] }) =
    some ([(0x0100, 0x9309#16), (0x0101, 0x8000#16)], 0x0102#18, some .ok) := by decide

/-- V2: one cell is left. -/
theorem test_set_overrun : faultOf (exec (.set 1#3 2#16) (blockAt .compat 0x1FFFF#18)) = some .overrun ∧
    recorded (exec (.set 1#3 2#16) (blockAt .strict 0x1FFFF#18)) =
      some (3#2, 0x1FFFF#18, some (.error ⟨.bufferOverrun, 0x1FFFF⟩)) := by decide

/-- V2: truncated in COMPAT. -/
theorem test_load : seen (exec (.load 3#3 0x1ABCD#32) (blockAt .compat 0x8000#18)) =
    some ([(0x8000, 0x9713#16), (0x8001, 0xABCD#16)], 0x8002#18, some .ok) := by decide

/-- V2. -/
theorem test_load_strict : recorded (exec (.load 3#3 0x1ABCD#32) (blockAt .strict 0x8000#18)) =
    some (1#2, 0x8000#18, some (.error ⟨.outOfRange, 0x1ABCD⟩)) := by decide

/-- V2: the literal 0x0000 leaves no listed cell. -/
theorem test_store : seen (exec (.store 0x0000#32 7#3) (blockAt .strict 0x8000#18)) =
    some ([(0x8000, 0xDF1F#16)], 0x8002#18, some .ok) := by decide

/-- R252: the first address that does not fit. -/
theorem test_store_strict : seen (exec (.store 65536#32 7#3) (blockAt .strict 0x8000#18)) =
    some ([], 0x8000#18, some (.error ⟨.outOfRange, 65536⟩)) := by decide

/-- V3 `(R3, R4)`. -/
theorem test_aluAdd : seen (exec (.aluAdd 3#3 4#3) (blockAt .strict 0x8000#18)) =
    some ([(0x8000, 0x0704#16)], 0x8001#18, some .ok) := by decide

/-- V3 `(R3, R4)`. -/
theorem test_aluAdc : seen (exec (.aluAdc 3#3 4#3) (blockAt .strict 0x8000#18)) =
    some ([(0x8000, 0x1704#16)], 0x8001#18, some .ok) := by decide

/-- V3 `(R3, R4)`. -/
theorem test_aluSub : seen (exec (.aluSub 3#3 4#3) (blockAt .strict 0x8000#18)) =
    some ([(0x8000, 0x2704#16)], 0x8001#18, some .ok) := by decide

/-- V3 `(R3, R4)`. -/
theorem test_aluSbc : seen (exec (.aluSbc 3#3 4#3) (blockAt .strict 0x8000#18)) =
    some ([(0x8000, 0x3704#16)], 0x8001#18, some .ok) := by decide

/-- V3 `(R3, R4)`. -/
theorem test_aluCmp : seen (exec (.aluCmp 3#3 4#3) (blockAt .strict 0x8000#18)) =
    some ([(0x8000, 0x4704#16)], 0x8001#18, some .ok) := by decide

/-- V3 `(R3, R4)`. -/
theorem test_aluNeg : seen (exec (.aluNeg 3#3 4#3) (blockAt .strict 0x8000#18)) =
    some ([(0x8000, 0x6704#16)], 0x8001#18, some .ok) := by decide

/-- V3 `(R3, R4)`. -/
theorem test_aluXor : seen (exec (.aluXor 3#3 4#3) (blockAt .strict 0x8000#18)) =
    some ([(0x8000, 0x8704#16)], 0x8001#18, some .ok) := by decide

/-- V3 `(R3, R4)`. -/
theorem test_aluLoad : seen (exec (.aluLoad 3#3 4#3) (blockAt .strict 0x8000#18)) =
    some ([(0x8000, 0x9704#16)], 0x8001#18, some .ok) := by decide

/-- V3 `(R3, R4)`. -/
theorem test_aluOr : seen (exec (.aluOr 3#3 4#3) (blockAt .strict 0x8000#18)) =
    some ([(0x8000, 0xA704#16)], 0x8001#18, some .ok) := by decide

/-- V3 `(R3, R4)`. -/
theorem test_aluAnd : seen (exec (.aluAnd 3#3 4#3) (blockAt .strict 0x8000#18)) =
    some ([(0x8000, 0xB704#16)], 0x8001#18, some .ok) := by decide

/-- V3 `(R3, R4)`. -/
theorem test_aluTest : seen (exec (.aluTest 3#3 4#3) (blockAt .strict 0x8000#18)) =
    some ([(0x8000, 0xC704#16)], 0x8001#18, some .ok) := by decide

/-- V3 `(R3, R4)`. -/
theorem test_aluStore : seen (exec (.aluStore 3#3 4#3) (blockAt .strict 0x8000#18)) =
    some ([(0x8000, 0xD704#16)], 0x8001#18, some .ok) := by decide

/-- V3. -/
theorem test_alu_reserved :
    seen (runCommand (.emitAlu 5#4 1#3 2#3) (blockAt .compat 0x8000#18)) = some ([(0x8000, 0x5302#16)], 0x8001#18, some .ok) ∧
    recorded (runCommand (.emitAlu 5#4 1#3 2#3) (blockAt .strict 0x8000#18)) =
      some (2#2, 0x8000#18, some (.error ⟨.reservedOpcode, 5⟩)) := by decide

/-- V4: 63 is encoded, 64 is truncated to 0. -/
theorem test_bne :
    seen (exec (.bne 0x8040#32) (blockAt .compat 0x8000#18)) = some ([(0x8000, 0x4E3F#16)], 0x8001#18, some .ok) ∧
    seen (exec (.bne 0x8041#32) (blockAt .compat 0x8000#18)) = some ([(0x8000, 0x4E00#16)], 0x8001#18, some .ok) := by decide

/-- V4: 63 back; the placeholder at 0x8000. -/
theorem test_beq :
    seen (exec (.beq 0x00C2#32) (blockAt .compat 0x0100#18)) = some ([(0x0100, 0x5E7F#16)], 0x101#18, some .ok) ∧
    seen (exec (.beq 0x0000#32) (blockAt .compat 0x8000#18)) = some ([(0x8000, 0x5E41#16)], 0x8001#18, some .ok) := by decide

/-- V4: 65 back gives 1; the target one past memory. -/
theorem test_bra :
    seen (exec (.bra 0x00C0#32) (blockAt .compat 0x0100#18)) = some ([(0x0100, 0xEE41#16)], 0x101#18, some .ok) ∧
    seen (exec (.bra 0x20000#32) (blockAt .compat 0x1FFFF#18)) = some ([(0x1FFFF, 0xEE00#16)], 0x20000#18, some .ok) := by decide

/-- V4: `info` is the signed displacement. -/
theorem test_bra_strict : recorded (exec (.bra 0x00C1#32) (blockAt .strict 0x0100#18)) =
    some (1#2, 0x0100#18, some (.error ⟨.outOfRange, -64⟩)) := by decide

/-- V4. -/
theorem test_branch_undefined : seen (runCommand (.emitBranch 9#4 0x8001#32) (blockAt .compat 0x8000#18)) =
      some ([(0x8000, 0x9E00#16)], 0x8001#18, some .ok) ∧
    recorded (runCommand (.emitBranch 0#4 0x8001#32) (blockAt .strict 0x8000#18)) =
      some (2#2, 0x8000#18, some (.error ⟨.reservedOpcode, 0⟩)) := by decide

/-- V5: the high part keeps six bits. -/
theorem test_goto : seen (exec (.goto 0x412345#32) (blockAt .compat 0x8003#18)) =
    some ([(0x8003, 0xFE81#16), (0x8004, 0x2345#16)], 0x8005#18, some .ok) := by decide

/-- V5. -/
theorem test_goto_strict : recorded (exec (.goto 0x400000#32) (blockAt .strict 0x8003#18)) =
    some (1#2, 0x8003#18, some (.error ⟨.outOfRange, 0x400000⟩)) := by decide

/-! ### The other commands -/

/-- V2, `SCRATCH_REG` = 1. -/
theorem test_storeImmediate :
    seen (runCommand (.storeImmediate 0x2810#32 0x00FF#16) (blockAt .compat 0x8000#18)) =
    some ([(0x8000, 0x9309#16), (0x8001, 0x00FF#16), (0x8002, 0xD319#16), (0x8003, 0x2810#16)], 0x8004#18, some .ok) := by decide

/-- V2: not even the first two words. -/
theorem test_storeImmediate_all_or_none :
    faultOf (runCommand (.storeImmediate 1#32 2#16) (blockAt .compat 0x1FFFD#18)) = some .overrun ∧
    seen (runCommand (.storeImmediate 1#32 2#16) (blockAt .strict 0x1FFFD#18)) =
      some ([], 0x1FFFD#18, some (.error ⟨.bufferOverrun, 0x1FFFD⟩)) := by decide

/-- V8. -/
theorem test_error_priority : recorded (runCommand (.emitBranch 9#4 0#32) (blockAt .strict 0x20000#18)) =
      some (2#2, 0x20000#18, some (.error ⟨.reservedOpcode, 9⟩)) ∧
    recorded (runCommand (.emitBranch 4#4 0#32) (blockAt .strict 0x20000#18)) =
      some (1#2, 0x20000#18, some (.error ⟨.outOfRange, -131073⟩)) ∧
    recorded (runCommand (.emitBranch 4#4 0x20001#32) (blockAt .strict 0x20000#18)) =
      some (3#2, 0x20000#18, some (.error ⟨.bufferOverrun, 0x20000⟩)) := by decide

/-- V8, rows 1 and 2. -/
theorem test_first_error_wins :
    recorded (runCommands [.emitAlu 5#4 1#3 2#3, .emitAlu 0#4 1#3 2#3, .emitBranch 14#4 0#32] (blockAt .strict 0x8000#18)) =
    some (2#2, 0x8000#18, some (.error ⟨.outOfRange, -32770⟩)) := by decide

/-- V8, last row. -/
theorem test_error_inside_patch :
    (nextOf (runCommand (.emitBranch 5#4 0x9000#32) (patching .strict 0x8000#18 0x9000#18))).map
      (fun t => (t.active, t.cursor, t.saved, t.lastAnswer)) =
    some (true, 0x8000#18, 0x9000#18, some (.error ⟨.outOfRange, 4095⟩)) := by decide

/-- V6. -/
theorem test_patch_misuse :
    faultOf (runCommand .patchBegin (patching .compat 0x8000#18 0x8007#18)) = some (.protocolFault .nested) ∧
    faultOf (runCommand (.patchSeek 0x8000#17) (blockAt .strict 0x8000#18)) = some (.protocolFault .seekOutsidePatch) ∧
    faultOf (runCommand .patchEnd (blockAt .strict 0x8000#18)) = some (.protocolFault .endOutsidePatch) := by decide

/-- S7. -/
theorem test_patch_pass :
    seen (runCommands [.emitGoto 0#32, .emitAlu 0#4 1#3 2#3, .patchBegin, .patchSeek 0x8000#17, .emitGoto 0x8003#32, .patchEnd]
      (blockAt .compat 0x8000#18)) =
    some ([(0x8000, 0xFE80#16), (0x8001, 0x8003#16), (0x8002, 0x0302#16)], 0x8003#18, some .ok) := by decide

/-- R258, D27. -/
theorem test_faulted_until_reset : (nextOf (step (State.issue .patchEnd (blockAt .compat 0x8000#18)))).map State.faulted =
      some (some (.protocolFault .endOutsidePatch)) ∧
    faultOf (step (State.issue .getCursor { blockAt .compat 0x8000#18 with faulted := some .overrun })) = some .overrun ∧
    (nextOf (step (State.issue .reset { blockAt .compat 0x9000#18 with faulted := some .overrun }))).map
      (fun t => (t.faulted, t.cursor)) = some (none, 0x8000#18) := by decide

/-- V7. -/
theorem test_poke_peek :
    (nextOf (runCommands [.poke 0x1FFFF#17 0xBEEF#16, .peek 0x1FFFF#17] (blockAt .compat 0x8000#18))).map
      (fun t => (t.lastAnswer, t.cursor)) = some (some (.cell 0xBEEF#16), 0x8000#18) := by decide

/-- The canonical form: a cell of zero is not listed. -/
theorem test_poke_zero :
    seen (runCommand (.poke 5#17 0#16) { blockAt .compat 0x8000#18 with mem := [(5, 1#16)] }) = some ([], 0x8000#18, some .ok) := by decide

/-- V7. -/
theorem test_cellBytes :
    cellBytes .little 0x1234#16 = [0x34#8, 0x12#8] ∧ cellBytes .big 0x1234#16 = [0x12#8, 0x34#8] := by decide

/-- S1, P1. -/
theorem test_source_scenario :
    (nextOf (runCommands [.emitSet 1#3 0x8000#16, .emitAlu 12#4 1#3 2#3] State.reset)).map (fun t => (t.mem, t.cursor)) =
    some ([(0x8000, 0x9309#16), (0x8001, 0x8000#16), (0x8002, 0xC302#16)], 0x8003#18) := by decide

/-! ### The machine -/

/-- R7. -/
theorem test_step_without_command : step State.reset = .next State.reset := rfl

/-- The first word is in bits 15 .. 0; the position is 0x8000. -/
theorem test_table_words :
    decodeTableWord 32 0x80009309 = some (.set 1#3 0x8000#16) ∧ decodeTableWord 16 0xC302 = some (.aluTest 1#3 2#3) ∧
    decodeTableWord 16 0x4E44 = some (.bne 0x7FFD#32) ∧ decodeTableWord 32 0x2345FE81 = some (.goto 0x12345#32) ∧
    decodeTableWord 16 0x5302 = none := by decide

/-- The first step after reset, with the call that emits the word. -/
theorem test_step_of_table_word :
    (nextOf (step (State.reset.withFetchWord 32 0x80009309))).map (fun t => (t.mem, t.cursor, t.pending)) =
    some ([(0x8000, 0x9309#16), (0x8001, 0x8000#16)], 0x8002#18, []) := by decide

/-! ### Witnesses: hypotheses met together, each clause at the edge of its range -/

theorem witness_ComposeAppliesAssignmentsInOrder :
    ∀ p ∈ [(WordField.opA, 1), (WordField.opA, 9)], p.1.mask &&& 0xF1FF#16 = 0#16 := by decide

theorem witness_CompositorLawsHold_disjoint : WordField.op1.mask &&& WordField.opimm.mask = 0#16 := by decide

theorem witness_CompositorLawsHold_cover :
    (let l : List (WordField × Nat) := [(.opA, 7), (.opimm, 64), (.op1, 1), (.op0, 15)]
    l.Pairwise (fun p q => p.1.mask &&& q.1.mask = 0#16) ∧ l.foldr (fun p m => p.1.mask ||| m) 0#16 = 0xFFFF#16 ∧
    [(WordField.opimm, 64), (.opA, 7), (.op1, 1), (.op0, 15)].Perm l) := by decide

theorem witness_CompositorLawsHold_register : [(WordField.op0, 15), (.opA, 8), (.opB, 0), (.opN, 7), (.op1, 4)].Perm
    [(WordField.opA, 8), (.opB, 0), (.opN, 7), (.op1, 4), (.op0, 15)] := by decide

theorem witness_DecodingAnEncodedInstructionGivesItBack :
    [Instr.set 7#3 0xFFFF#16, .load 0#3 65535#32, .store 65535#32 7#3, .aluAdd 7#3 0#3, .bne 0x8040#32, .beq 0x7FC2#32, .bra 0x8001#32,
      .goto 0x3FFFFF#32].all (Instr.wellFormed 0x8000#18) = true := by decide

theorem witness_EncodingADecodedInstructionGivesTheWordsBack :
    decodeAt 7#3 0x0000#18 [0xEE41#16, 5#16] = .ok (.bra 0#32, [5#16]) ∧
    ¬ (getField 0xEE41#16 .op1 = 1 ∧ getField 0xEE41#16 .opimm = 0) := ⟨rfl, by decide⟩

theorem witness_OpcodeRowsAreDisjointAndDecodingKeepsThem :
    (⟨"BNE", 0x4E00#16, 0xFF80#16⟩ : Row) ∈ opcodeRows ∧ 0x4E7F#16 &&& 0xFF80#16 = 0x4E00#16 ∧
    decodeAt 7#3 0x8000#18 [0x4E7F#16] = .ok (.bne 0x7FC2#32, []) := ⟨by decide, by decide, rfl⟩

/-- The last cursor at which two words fit, and the first at which they do not, in both modes. -/
theorem witness_EmitsOrOverruns_two_words :
    (blockAt .compat 0x1FFFE#18).Live ∧ (blockAt .compat 0x1FFFE#18).cursor.toNat + 2 ≤ 131072 ∧
    (blockAt .strict 0x1FFFF#18).Live ∧ 131072 < (blockAt .strict 0x1FFFF#18).cursor.toNat + 2 ∧
    (blockAt .strict 0x1FFFF#18).cfg.mode = .strict ∧ (blockAt .compat 0x1FFFF#18).cfg.mode = .compat := by decide

/-- The same for `storeImmediate`. -/
theorem witness_EmitsOrOverruns_four_words :
    (blockAt .compat 0x1FFFC#18).Live ∧ (blockAt .compat 0x1FFFC#18).cursor.toNat + 4 ≤ 131072 ∧
    (blockAt .strict 0x1FFFD#18).Live ∧ 131072 < (blockAt .strict 0x1FFFD#18).cursor.toNat + 4 ∧
    (blockAt .strict 0x1FFFD#18).cfg.mode = .strict ∧ (blockAt .compat 0x1FFFD#18).cfg.mode = .compat := by decide

/-- The same for `emitAlu` and `emitBranch`. -/
theorem witness_EmitsOrOverruns_one_word :
    (blockAt .compat 0x1FFFF#18).Live ∧ (blockAt .compat 0x1FFFF#18).cursor.toNat + 1 ≤ 131072 ∧
    (blockAt .strict 0x20000#18).Live ∧ 131072 < (blockAt .strict 0x20000#18).cursor.toNat + 1 ∧
    (blockAt .compat 0x20000#18).cfg.mode = .compat := by decide

theorem witness_SetEmitsLoadImmediateAndLiteral :
    (blockAt .strict 0x1FFFE#18).Live ∧ ∃ t, exec (.set 7#3 0xFFFF#16) (blockAt .strict 0x1FFFE#18) = .next t ∧ t.cursor = 0x20000#18 := ⟨rfl, _, rfl, rfl⟩

theorem witness_LoadEmitsAbsoluteLoadAndAddress :
    (blockAt .strict 0x8000#18).Live ∧ (blockAt .strict 0x8000#18).cfg.mode = .strict ∧ 65536 ≤ (65536#32).toNat ∧
    (65535#32).toNat < 65536 ∧ (blockAt .compat 0x8000#18).Live ∧ (blockAt .compat 0x8000#18).cfg.mode = .compat := by decide

theorem witness_StoreEmitsAbsoluteStoreAndAddress :
    (blockAt .strict 0x8000#18).Live ∧ (blockAt .strict 0x8000#18).cfg.mode = .strict ∧ 65536 ≤ (65536#32).toNat ∧
    (65535#32).toNat < 65536 ∧ (blockAt .compat 0x8000#18).Live ∧ (blockAt .compat 0x8000#18).cfg.mode = .compat := by decide

theorem witness_StoreImmediateEmitsFourWordsOrNone :
    (blockAt .strict 0x8000#18).Live ∧ (blockAt .strict 0x8000#18).cfg.mode = .strict ∧ 65536 ≤ (65536#32).toNat ∧
    (65535#32).toNat < 65536 ∧ (blockAt .compat 0x8000#18).Live ∧ (blockAt .compat 0x8000#18).cfg.mode = .compat := by decide

theorem witness_AluCommandEmitsOneRegisterWord :
    (blockAt .strict 0x8000#18).Live ∧ (blockAt .strict 0x8000#18).cfg.mode = .strict ∧
    (5#4).toNat ∈ [5, 7, 14, 15] ∧ (15#4).toNat ∈ [5, 7, 14, 15] ∧ (6#4).toNat ∉ [5, 7, 14, 15] ∧ (13#4).toNat ∉ [5, 7, 14, 15] := by decide

theorem witness_TwelveAluOperationsEmitTheirWords :
    (blockAt .strict 0x1FFFF#18).Live ∧ (blockAt .strict 0x1FFFF#18).cursor.toNat + 1 ≤ 131072 ∧
    0xD100#16 ∈ [0x0100#16, 0x1100#16, 0x2100#16, 0x3100#16, 0x4100#16, 0x6100#16, 0x8100#16, 0x9100#16, 0xA100#16,
        0xB100#16, 0xC100#16, 0xD100#16] := by decide

theorem witness_BranchCommandEmitsDirectionAndMagnitude :
    (blockAt .strict 0x0100#18).Live ∧ (blockAt .strict 0x0100#18).cfg.mode = .strict ∧ (6#4).toNat ∉ [4, 5, 14] ∧
    (14#4).toNat ∈ [4, 5, 14] ∧ 63 < (((0x0141#32).toNat : Int) - (((0x0100#18).toNat : Int) + 1)).natAbs ∧
    (((0x0140#32).toNat : Int) - (((0x0100#18).toNat : Int) + 1)).natAbs ≤ 63 ∧
    63 < (((0x00C1#32).toNat : Int) - (((0x0100#18).toNat : Int) + 1)).natAbs ∧
    (((0x00C2#32).toNat : Int) - (((0x0100#18).toNat : Int) + 1)).natAbs ≤ 63 := by decide

theorem witness_ThreeConditionsEmitTheirBranchWords :
    (blockAt .strict 0x0100#18).Live ∧ (blockAt .strict 0x0100#18).cfg.mode = .strict ∧
    63 < (((0x00C1#32).toNat : Int) - (((0x0100#18).toNat : Int) + 1)).natAbs ∧
    (((0x00C2#32).toNat : Int) - (((0x0100#18).toNat : Int) + 1)).natAbs ≤ 63 ∧ (blockAt .strict 0x0100#18).cfg.pcIndex = 7#3 := by decide

theorem witness_BranchMagnitudeIsExactOrTruncated :
    (blockAt .compat 0x1FFFF#18).Live ∧ (blockAt .compat 0x1FFFF#18).cursor.toNat < 131072 ∧
    (blockAt .compat 0x1FFFF#18).cfg.mode = .compat ∧ (blockAt .compat 0x1FFFF#18).cfg.pcIndex = 7#3 ∧
    (blockAt .strict 0x0100#18).cursor.toNat < 131072 ∧ (4#4).toNat ∈ [4, 5, 14] ∧
    (((0x0140#32).toNat : Int) - (((0x0100#18).toNat : Int) + 1)).natAbs ≤ 63 := by decide

theorem witness_BranchMagnitudeIsExactOrTruncated_displacements :
    ((0x0141#32).toNat : Int) - (((0x0100#18).toNat : Int) + 1) = 64 ∧ ((0x0101#32).toNat : Int) - (((0x0100#18).toNat : Int) + 1) = 0 ∧
    ((0x00C1#32).toNat : Int) - (((0x0100#18).toNat : Int) + 1) = -64 ∧ ((0x00C0#32).toNat : Int) - (((0x0100#18).toNat : Int) + 1) = -65 ∧
    ((0x00C2#32).toNat : Int) - (((0x0100#18).toNat : Int) + 1) = -63 := by decide

theorem witness_GotoEmitsHighPartAndLowWord :
    (blockAt .strict 0x1FFFE#18).Live ∧ (blockAt .strict 0x1FFFE#18).cfg.mode = .strict ∧ 4194304 ≤ (4194304#32).toNat ∧
    (4194303#32).toNat < 4194304 ∧ (blockAt .strict 0x1FFFE#18).cfg.pcIndex = 7#3 := by decide

theorem witness_EmissionCommandsRefineTheEncoder :
    (blockAt .strict 0x20000#18).Live ∧ (Command.emitBranch 4#4 0x20001#32).isEmission = true ∧
    (Command.emitBranch 4#4 0x20001#32).strictError? 0x20000#18 = some ⟨.bufferOverrun, 131072⟩ ∧
    (Command.emitBranch 4#4 0x20001#32).strictError? 0x1FFFF#18 = none ∧
    (blockAt .compat 0x1FFFF#18).cursor.toNat + (Command.emitBranch 9#4 0#32).wordCount ≤ 131072 ∧
    131072 < (blockAt .compat 0x20000#18).cursor.toNat + (Command.emitBranch 9#4 0#32).wordCount := by decide

theorem witness_InstructionsChangeOnlyTheirCells :
    (∃ t, exec (.goto 0x12345#32) (patching .strict 0x1FFFE#18 0x9000#18) = .next t ∧ t.lastAnswer = some .ok) ∧
    (∃ t, exec (.goto 0x400000#32) (blockAt .strict 0x20000#18) = .next t ∧ t.lastAnswer = some (.error ⟨.outOfRange, 0x400000⟩)) := ⟨⟨_, rfl, rfl⟩, ⟨_, rfl, rfl⟩⟩

theorem witness_EmittedWordsIgnorePriorContent :
    (Command.emitSet 1#3 2#16).isEmission = true ∧
    ∃ t, runCommand (.emitSet 1#3 2#16) { blockAt .compat 0x1FFFE#18 with mem := [(0x1FFFE, 0xFFFF#16)] } = .next t := ⟨rfl, _, rfl⟩

theorem witness_WordsDependOnPositionOnlyForBranches : Memory.wf (blockAt .strict 0x0100#18).mem = true ∧
    (∃ t, runCommand (.emitGoto 5#32) (blockAt .strict 0x0100#18) = .next t ∧ t.lastAnswer = some .ok) ∧
    (∃ t, runCommand (.emitGoto 5#32) { blockAt .strict 0x0100#18 with cursor := 0x1FFFE#18 } = .next t ∧
      t.lastAnswer = some .ok) ∧
    ((0x0120#32).toNat : Int) - (0x0100#18).toNat = ((0x8020#32).toNat : Int) - (0x8000#18).toNat ∧
    (∃ t, runCommand (.emitBranch 14#4 0x0120#32) (blockAt .strict 0x0100#18) = .next t ∧ t.lastAnswer = some .ok) ∧
    (∃ t, runCommand (.emitBranch 14#4 0x8020#32) { blockAt .strict 0x0100#18 with cursor := 0x8000#18 } = .next t ∧
      t.lastAnswer = some .ok) := ⟨rfl, ⟨_, rfl, rfl⟩, ⟨_, rfl, rfl⟩, by decide, ⟨_, rfl, rfl⟩, ⟨_, rfl, rfl⟩⟩

theorem witness_EmissionIgnoresTheFixupRegisters :
    (∃ t, runCommand (.emitAlu 15#4 1#3 2#3) (blockAt .compat 0x1FFFF#18) = .next t) ∧
    runCommand (.emitAlu 15#4 1#3 2#3) (blockAt .compat 0x20000#18) = .fault .overrun := ⟨⟨_, rfl⟩, rfl⟩

theorem witness_EmittedCellsDecodeToTheInstruction :
    (blockAt .strict 0x1FFFE#18).Live ∧ Memory.wf (blockAt .strict 0x1FFFE#18).mem = true ∧
    Instr.wellFormed 0x1FFFE#18 (.load 7#3 65535#32) = true ∧ (0x1FFFE#18).toNat + (Instr.load 7#3 65535#32).wordCount ≤ 131072 := by decide

theorem witness_ImageHoldsTheEmittedInstruction :
    (blockAt .strict 0x1FFFE#18).Live ∧ Memory.wf (blockAt .strict 0x1FFFE#18).mem = true ∧
    Instr.wellFormed 0x1FFFE#18 (.load 7#3 65535#32) = true ∧ (0x1FFFE#18).toNat + (Instr.load 7#3 65535#32).wordCount ≤ 131072 := by decide

theorem witness_ErrorsArePreciseAndRecordedOnce :
    ∃ t, runCommand (.emitLoad 1#3 65536#32) (patching .strict 0x20000#18 0x9000#18) = .next t ∧
    t.lastAnswer = some (.error ⟨.outOfRange, 65536⟩) ∧ (patching .strict 0x20000#18 0x9000#18).faultCode = 0#2 := ⟨_, rfl, rfl, rfl⟩

theorem witness_ErrorsArePreciseAndRecordedOnce_later :
    ∃ t, runCommand (.emitAlu 7#4 1#3 1#3) { blockAt .strict 0x8000#18 with faultCode := 3#2, faultPos := 0x20000#18 } = .next t ∧
    t.lastAnswer = some (.error ⟨.reservedOpcode, 7⟩) ∧ t.faultCode ≠ 0#2 := ⟨_, rfl, rfl, by decide⟩

theorem witness_FirstErrorIsStickyUntilReset :
    (∃ t, step (State.issue (.emitAlu 7#4 1#3 1#3) { blockAt .strict 0x8000#18 with faultCode := 3#2 }) = .next t) ∧
    (∀ rest, (State.issue (.emitAlu 7#4 1#3 1#3) (blockAt .strict 0x8000#18)).pending ≠ .reset :: rest) ∧
    (∃ t, step (State.issue (.emitAlu 7#4 1#3 1#3) (blockAt .strict 0x8000#18)) = .next t ∧
      t.lastAnswer = some (.error ⟨.reservedOpcode, 7⟩)) := ⟨⟨_, rfl⟩, by simp [State.issue], ⟨_, rfl, rfl⟩⟩

theorem witness_CompatModeSignalsNothing :
    (blockAt .compat 0x1FFFE#18).cfg.mode = .compat ∧ (blockAt .compat 0x1FFFE#18).Live ∧
    (Command.emitLoad 1#3 65536#32).isEmission = true ∧ (0x1FFFE#18).toNat + (Command.emitLoad 1#3 65536#32).wordCount ≤ 131072 ∧
    ∃ t, runCommand (.emitLoad 1#3 65536#32) (blockAt .compat 0x1FFFE#18) = .next t := ⟨rfl, rfl, rfl, by decide, _, rfl⟩

theorem witness_ModelFaultsAreOverrunAndPatchMisuse :
    runCommand (.emitAlu 0#4 0#3 0#3) (blockAt .compat 0x20000#18) = .fault .overrun ∧
    runCommand .patchBegin (patching .strict 0#18 0#18) = .fault (.protocolFault .nested) ∧
    runCommand (.patchSeek 0#17) (blockAt .compat 0#18) = .fault (.protocolFault .seekOutsidePatch) ∧
    runCommand .patchEnd (blockAt .compat 0#18) = .fault (.protocolFault .endOutsidePatch) := ⟨rfl, rfl, rfl, rfl⟩

theorem witness_FaultedBlockStopsUntilReset :
    ({ blockAt .strict 0#18 with faulted := some (.protocolFault .nested) } : State).faulted = some (.protocolFault .nested) ∧
    Command.peek 0#17 ≠ .reset := by decide

theorem witness_ModelFaultIsKeptByTheStep :
    (State.issue .patchEnd (blockAt .compat 0#18)).Live ∧ (State.issue .patchEnd (blockAt .compat 0#18)).pending = [.patchEnd] ∧
    runCommand .patchEnd { State.issue .patchEnd (blockAt .compat 0#18) with pending := [] } =
      .fault (.protocolFault .endOutsidePatch) := ⟨rfl, rfl, rfl⟩

theorem witness_GetCursorReturnsThePosition :
    (patching .strict 0x20000#18 0#18).Live ∧ (∃ t u, runCommand .getCursor (patching .strict 0x20000#18 0#18) = .next t ∧
    runCommand .getCursor t = .next u) ∧ (blockAt .strict 0#18).cfg.codeStart = 0x8000#17 := ⟨rfl, ⟨_, _, rfl, rfl⟩, rfl⟩

theorem witness_PatchBeginSavesTheCursor :
    (blockAt .compat 0x20000#18).Live ∧ (blockAt .compat 0x20000#18).active = false ∧ (patching .strict 0#18 0x20000#18).Live ∧
    (patching .strict 0#18 0x20000#18).active = true := by decide

theorem witness_PatchSeekMovesTheCursor :
    (blockAt .compat 0x20000#18).Live ∧ (blockAt .compat 0x20000#18).active = false ∧ (patching .strict 0#18 0x20000#18).Live ∧
    (patching .strict 0#18 0x20000#18).active = true := by decide

theorem witness_PatchEndRestoresTheCursor :
    (blockAt .compat 0x20000#18).Live ∧ (blockAt .compat 0x20000#18).active = false ∧ (patching .strict 0#18 0x20000#18).Live ∧
    (patching .strict 0#18 0x20000#18).active = true := by decide

theorem witness_PatchPassRestoresTheCursor :
    (∀ c ∈ [Command.patchSeek 0x1FFFF#17, .emitAlu 5#4 0#3 0#3, .poke 0#17 1#16], c ≠ .reset ∧ c ≠ .patchBegin ∧ c ≠ .patchEnd) ∧
    ∃ t, runCommands (.patchBegin :: ([.patchSeek 0x1FFFF#17, .emitAlu 5#4 0#3 0#3, .poke 0#17 1#16] ++ [.patchEnd]))
      (blockAt .compat 0x8000#18) = .next t := ⟨by decide, _, rfl⟩

theorem witness_PatchingEqualsEmittingTheRealTarget :
    (blockAt .strict 0x8000#18).Live ∧ (blockAt .strict 0x8000#18).active = false ∧ Memory.wf (blockAt .strict 0x8000#18).mem = true ∧
    (blockAt .strict 0x8000#18).cursor = (0x8000#17).setWidth 18 ∧
    (Command.emitBranch 5#4 0x8001#32).samePrimitive (.emitBranch 5#4 0x8003#32) ∧
    (∀ c ∈ [Command.emitSet 1#3 5#16, .getCursor], c.appends = true) ∧
    (Command.emitBranch 5#4 0x8001#32).strictError? 0x8000#18 = none ∧
    (Command.emitBranch 5#4 0x8003#32).strictError? 0x8000#18 = none ∧
    ∃ t, runCommands [.emitBranch 5#4 0x8003#32, .emitSet 1#3 5#16, .getCursor] (blockAt .strict 0x8000#18) = .next t := ⟨rfl, rfl, rfl, rfl, rfl, by decide, by decide, by decide, _, rfl⟩

theorem witness_PatchingEqualsEmittingTheRealTarget_goto :
    (Command.emitGoto 0#32).samePrimitive (.emitGoto 0x12345#32) ∧ (blockAt .compat 0x1FFFE#18).cursor = (0x1FFFE#17).setWidth 18 ∧
    ∃ t, runCommands [.emitGoto 0x12345#32] (blockAt .compat 0x1FFFE#18) = .next t := ⟨trivial, rfl, _, rfl⟩

theorem witness_FixupRegistersHaveTheirWritersOnly :
    ∃ t, runCommand (.patchSeek 0x1FFFF#17) (patching .compat 0#18 0x20000#18) = .next t ∧ Command.patchSeek 0x1FFFF#17 ≠ .patchBegin ∧
    Command.patchSeek 0x1FFFF#17 ≠ .patchEnd ∧ Command.patchSeek 0x1FFFF#17 ≠ .reset := ⟨_, rfl, by decide, by decide, by decide⟩

theorem witness_PokeWritesOneCell :
    (blockAt .strict 0#18).Live ∧ Memory.wf ({ blockAt .strict 0#18 with mem := [(0, 1#16), (131071, 2#16)] } : State).mem = true := by decide

theorem witness_PeekReturnsTheLatestWrite :
    (blockAt .strict 0#18).Live ∧ Memory.wf ({ blockAt .strict 0#18 with mem := [(0, 1#16), (131071, 2#16)] } : State).mem = true := by decide

theorem witness_SerializeReturnsEveryCell :
    (blockAt .compat 0#18).Live ∧ (blockAt .compat 0#18).cfg.byteOrder = .little ∧ 131071 < 131072 ∧
    ({ blockAt .compat 0#18 with cfg := { Config.chosen with byteOrder := .big } } : State).Live ∧
    ({ blockAt .compat 0#18 with cfg := { Config.chosen with byteOrder := .big } } : State).cfg.byteOrder = .big := by decide

theorem witness_CommandsWriteOnlyTheirCells :
    (∃ t, runCommand (.storeImmediate 0#32 1#16) (blockAt .compat 0x1FFFB#18) = .next t) ∧ Command.storeImmediate 0#32 1#16 ≠ .reset ∧
    (0x1FFFA < (0x1FFFB#18).toNat ∨ (0x1FFFB#18).toNat + 4 ≤ 0x1FFFA) ∧ (0x1FFFF < (0x1FFFB#18).toNat ∨ (0x1FFFB#18).toNat + 4 ≤ 0x1FFFF) ∧
    (∃ t, runCommand (.poke 5#17 1#16) (blockAt .compat 0#18) = .next t) ∧ (6 ≠ (5#17).toNat) := ⟨⟨_, rfl⟩, by decide, by decide, by decide, ⟨_, rfl⟩, by decide⟩

theorem witness_CursorAdvancesByTheWordCount :
    (∃ t, runCommand (.emitGoto 0#32) (blockAt .compat 0x1FFFE#18) = .next t) ∧ (∀ pos, Command.emitGoto 0#32 ≠ .patchSeek pos) ∧
    Command.emitGoto 0#32 ≠ .patchEnd ∧ Command.emitGoto 0#32 ≠ .reset ∧ (blockAt .compat 0x1FFFE#18).active = false := ⟨⟨_, rfl⟩, by simp, by decide, by decide, rfl⟩

theorem witness_StepRunsTheDecodedInstruction :
    decodeAt (blockAt .strict 0x1FFFE#18).cfg.pcIndex 0x1FFFE#18 (tableWords 32 0x2345FE81) = .ok (.goto 0x12345#32, []) ∧
    ∃ t, exec (.goto 0x12345#32) (blockAt .strict 0x1FFFE#18) = .next t := ⟨rfl, _, rfl⟩

theorem witness_StepRunsTheDecodedInstruction_faults :
    decodeAt (blockAt .compat 0x1FFFF#18).cfg.pcIndex 0x1FFFF#18 (tableWords 32 0x2345FE81) = .ok (.goto 0x12345#32, []) ∧
    exec (.goto 0x12345#32) (blockAt .compat 0x1FFFF#18) = .fault .overrun ∧ (blockAt .compat 0x1FFFF#18).Live ∧
    exec (.goto 0x12345#32) { blockAt .compat 0x1FFFF#18 with faulted := some .overrun } = .fault .overrun ∧
    ¬ ({ blockAt .compat 0x1FFFF#18 with faulted := some .overrun } : State).Live := ⟨rfl, rfl, rfl, rfl, by decide⟩

theorem witness_StepPerformsOneCommand :
    (blockAt .strict 0#18).pending = [] ∧ (State.issue .serialize (blockAt .strict 0#18)).pending = [.serialize] ∧
    ∃ t, runCommand (.peek 0#17) { State.issue (.peek 0#17) (blockAt .strict 0#18) with pending := [] } = .next t := ⟨rfl, rfl, _, rfl⟩

theorem witness_ConfigurationNeverChanges : ∃ t, step (State.issue .reset (blockAt .strict 0x20000#18)) = .next t := ⟨_, rfl⟩

theorem witness_EveryStepKeepsTheInvariants :
    ({ patching .strict 0x20000#18 0x20000#18 with
      mem := [(0, 1#16), (131071, 2#16)], faultCode := 3#2, faultPos := 0x20000#18, pending := [.patchEnd] } : State).Inv ∧
    ∃ t, step { patching .strict 0x20000#18 0x20000#18 with
      mem := [(0, 1#16), (131071, 2#16)], faultCode := 3#2, faultPos := 0x20000#18, pending := [.patchEnd] } = .next t := ⟨⟨by decide, by decide, by decide, by decide, by decide, by decide⟩, _, rfl⟩

end Sys2Proof.Tests
end

/-!
The laws of the compositor that R121, R122 and R123 state, over the bit-by-bit lemmas of `Sys2Proof/Laws/WordModel.lean`.
-/
namespace Sys2Proof

/-! ### `setField` (R121) -/

/-- R121's own formula: the truncated value shifted to the field's place. -/
theorem setField_eq_or_shiftLeft (w : Word) (F : WordField) (v : Nat) :
    setField w F v = (w &&& ~~~F.mask) ||| (BitVec.ofNat 16 (v % 2 ^ F.width) <<< F.lo) := by
  have hshift : BitVec.ofNat 16 (v % 2 ^ F.width * 2 ^ F.lo) = BitVec.ofNat 16 (v % 2 ^ F.width) <<< F.lo :=
    BitVec.eq_of_toNat_eq (by simp [Nat.shiftLeft_eq])
  rw [setField, hshift]

theorem setField_zero_word (F : WordField) (v : Nat) :
    setField 0#16 F v = BitVec.ofNat 16 (v % 2 ^ F.width) <<< F.lo := by
  simp [setField_eq_or_shiftLeft]

/-- Whatever lies outside the field keeps its value: the frame of `setField`. -/
theorem setField_and_of_disjoint (w : Word) (F : WordField) (v : Nat) {keep : Word} (h : F.mask &&& keep = 0#16) :
    setField w F v &&& keep = w &&& keep := by
  apply BitVec.eq_of_getLsbD_eq
  intro i _
  have hbit : (F.mask &&& keep).getLsbD i = false := by simp [h]
  rw [BitVec.getLsbD_and, WordField.mask_getLsbD] at hbit
  rw [BitVec.getLsbD_and, BitVec.getLsbD_and, setField_getLsbD]
  split
  · next hin =>
    have hkeep : keep.getLsbD i = false := by simpa [hin] using hbit
    rw [hkeep, Bool.and_false, Bool.and_false]
  · rfl

/-- Inside the field nothing of the prior word is left. -/
theorem setField_and_mask (w : Word) (F : WordField) (v : Nat) :
    setField w F v &&& F.mask = setField 0#16 F v := by
  apply BitVec.eq_of_getLsbD_eq
  intro i _
  rw [BitVec.getLsbD_and, WordField.mask_getLsbD, ← Bool.decide_and, setField_getLsbD, setField_getLsbD]
  split
  · next hin => simp [hin]
  · next hout => simp [hout]

theorem setField_mod_width (w : Word) (F : WordField) (v : Nat) :
    setField w F (v % 2 ^ F.width) = setField w F v := by
  rw [setField, setField, Nat.mod_mod]

theorem setField_zero_value (w : Word) (F : WordField) : setField w F 0 = w &&& ~~~F.mask := by
  simp [setField]

theorem setField_getField (w : Word) (F : WordField) : setField w F (getField w F) = w := by
  apply BitVec.eq_of_getLsbD_eq
  intro i _
  rw [setField_getLsbD]
  split
  · next hin =>
    have hwidth : i - F.lo < F.width := by omega
    rw [getField_testBit, Nat.add_sub_of_le hin.1]
    simp [hwidth]
  · rfl

/-- Settles O2: the value of `setField` outside and inside the mask, by `setField_and_of_disjoint` and
`setField_and_mask`. -/
theorem setFieldWritesExactlyItsField : Obligations.SetFieldWritesExactlyItsField := by
  refine ⟨fun w F v => ⟨setField_eq_or_shiftLeft w F v, ?outside, ?inside, (setField_mod_width w F v).symm,
    setField_zero_value w F, setField_getField w F⟩, by decide, by decide, by decide⟩
  case outside => exact setField_and_of_disjoint w F v (BitVec.and_not_self F.mask)
  case inside => rw [setField_and_mask, setField_zero_word]

/-! ### `getField` (R122) -/

/-- A field read is the bit slice `w[lo+width-1 : lo]`. -/
theorem getField_eq_div_mod (w : Word) (F : WordField) :
    getField w F = w.toNat / 2 ^ F.lo % 2 ^ F.width := by
  apply Nat.eq_of_testBit_eq
  intro i
  rw [getField_testBit, Nat.testBit_mod_two_pow, Nat.testBit_div_two_pow, BitVec.testBit_toNat, Nat.add_comm]

/-- Settles O3: mask and shift is the definition, the slice is `getField_eq_div_mod`. -/
theorem getFieldReadsTheFieldZeroExtended : Obligations.GetFieldReadsTheFieldZeroExtended :=
  ⟨fun w F => ⟨rfl, getField_eq_div_mod w F⟩, by decide, by decide, by decide, by decide, by decide⟩

/-! ### `compose` (R123) -/

@[simp] theorem compose_nil (prior : Word) : compose prior [] = prior := rfl

@[simp] theorem compose_cons (prior : Word) (F : WordField) (v : Nat) (rest : List (WordField × Nat)) :
    compose prior ((F, v) :: rest) = compose (setField prior F v) rest := rfl

theorem compose_append (prior : Word) (l l' : List (WordField × Nat)) :
    compose prior (l ++ l') = compose (compose prior l) l' := by
  induction l generalizing prior with
  | nil => rfl
  | cons p rest ih => exact ih (setField prior p.1 p.2)

/-- Bits that no field of the list covers keep their prior value. -/
theorem compose_and_of_disjoint (prior : Word) (l : List (WordField × Nat)) {keep : Word}
    (h : ∀ p ∈ l, p.1.mask &&& keep = 0#16) : compose prior l &&& keep = prior &&& keep := by
  induction l generalizing prior with
  | nil => rfl
  | cons p rest ih =>
    obtain ⟨hp, hrest⟩ := List.forall_mem_cons.mp h
    rw [compose_cons, ih _ hrest, setField_and_of_disjoint prior p.1 p.2 hp]

/-- The last assignment of a list decides its whole field. -/
theorem compose_concat_and_mask (prior : Word) (l : List (WordField × Nat)) (F : WordField) (v : Nat) :
    compose prior (l ++ [(F, v)]) &&& F.mask = setField 0#16 F v := by
  rw [compose_append, compose_cons, compose_nil, setField_and_mask]

/-- Settles O4: the recursion is the definition's; kept bits by induction on the list (`compose_and_of_disjoint`), and the
last pair wins because `compose` splits at an append (`compose_append`). -/
theorem composeAppliesAssignmentsInOrder : Obligations.ComposeAppliesAssignmentsInOrder :=
  ⟨compose_nil, compose_cons, fun prior l _ => compose_and_of_disjoint prior l, compose_concat_and_mask,
    by decide, by decide⟩

end Sys2Proof

/-!
The result of `getCursor` (R220), and what `reset`, `emitSet` and a sequence of commands leave, as its example needs them.
-/
namespace Sys2Proof.Machine

/-- A completed command hands its state to the rest of the sequence. -/
theorem runCommands_cons_of_next {c : Command} {s t : State} (h : runCommand c s = .next t) (rest : List Command) :
    runCommands (c :: rest) s = runCommands rest t := by
  rw [runCommands, h]

@[simp] theorem State.lastAnswer_answer (s : State) (a : Answer) : (s.answer a).lastAnswer = some a := rfl

theorem runCommand_getCursor {s : State} (h : s.Live) :
    runCommand .getCursor s = .next (s.answer (.position s.cursor)) :=
  whenLive_of_live h fun s => .next (s.answer (.position s.cursor))

theorem runCommand_reset (s : State) : runCommand .reset s = .next (s.cleared.answer .ok) := rfl

/-- `emitSet` where its two words fit (R140). -/
theorem runCommand_emitSet_fits {s : State} (hl : s.Live) (hfit : s.cursor.toNat + 2 ≤ memWords) (reg : Reg)
    (value : Word) :
    runCommand (.emitSet reg value) s = .next (s.emitted [assembleRegister 9#4 reg 4#3 1#3 reg, value]) :=
  calc runCommand (.emitSet reg value) s
    _ = need 2 s fun s => putSet reg value s done :=
        whenLive_of_live hl fun s => need 2 s fun s => putSet reg value s done
    _ = putSet reg value s done := need_fits hfit _
    _ = done ((s.put (assembleRegister 9#4 reg 4#3 1#3 reg)).put value) :=
        emit_two hfit (fun prior => compose_set prior reg) value done
    _ = .next (s.emitted [assembleRegister 9#4 reg 4#3 1#3 reg, value]) := put_put_done hfit _ _

/-- A second `getCursor` with nothing between answers what the first did. -/
theorem getCursor_twice_same_answer {s t u : State} (hl : s.Live) (ht : runCommand .getCursor s = .next t)
    (hu : runCommand .getCursor t = .next u) : u.lastAnswer = t.lastAnswer := by
  obtain rfl : s.answer (.position s.cursor) = t := by simpa [runCommand_getCursor hl] using ht
  have hl' : (s.answer (.position s.cursor)).Live := hl
  obtain rfl : (s.answer (.position s.cursor)).answer (.position s.cursor) = u := by
    simpa [runCommand_getCursor hl'] using hu
  simp

/-- After `reset` and one `emitSet` that fits, `getCursor` answers the second cell behind `CODE_START`. -/
theorem getCursor_after_reset_emitSet (reg : Reg) (value : Word) (s : State)
    (hfit : s.cfg.codeStart.toNat + 2 ≤ memWords) :
    ∃ t, runCommands [.reset, .emitSet reg value, .getCursor] s = .next t ∧
      t.lastAnswer = some (.position (s.cfg.codeStart.setWidth 18 + 2#18)) := by
  have hcursor : (s.cfg.codeStart.setWidth 18).toNat + 2 ≤ memWords := by
    rwa [BitVec.toNat_setWidth_of_le (by decide)]
  rw [runCommands_cons_of_next (runCommand_reset s), runCommands_cons_of_next (runCommand_emitSet_fits rfl hcursor reg value),
    runCommands_cons_of_next (runCommand_getCursor rfl)]
  exact ⟨_, rfl, State.lastAnswer_answer _ _⟩

/-- Settles O34: the first clause is `runCommand_getCursor`, and R220's example is the general position after `reset` and
`emitSet` at `CODE_START` = 0x8000. -/
theorem getCursorReturnsThePosition : Obligations.GetCursorReturnsThePosition := by
  refine fun s hl => ⟨runCommand_getCursor hl, fun t u => getCursor_twice_same_answer hl, fun reg value hstart => ?_⟩
  have h := getCursor_after_reset_emitSet reg value s (by rw [hstart]; decide)
  rwa [hstart] at h

end Sys2Proof.Machine

/-!
The laws of the compositor (40_word_model.md section 3): a field read after a write, disjoint fields, and a list of fields that
covers the word.
-/
namespace Sys2Proof

/-- Settles O1: six closed masks. -/
theorem fieldMasksPartitionTheWord : Obligations.FieldMasksPartitionTheWord := by
  unfold Obligations.FieldMasksPartitionTheWord
  decide

/-! ### Two fields -/

theorem getField_setField_same (w : Word) (F : WordField) (v : Nat) : getField (setField w F v) F = v % 2 ^ F.width := by
  apply Nat.eq_of_testBit_eq
  intro i
  rw [getField_testBit, setField_getLsbD, Nat.testBit_mod_two_pow]
  by_cases hi : i < F.width
  · rw [if_pos ⟨by omega, by omega⟩, Nat.add_sub_cancel_left]
  · simp [hi]

/-- No bit lies in both of two disjoint fields. -/
theorem WordField.not_mem_of_disjoint {F G : WordField} (h : F.mask &&& G.mask = 0#16) {i : Nat}
    (hF : F.lo ≤ i ∧ i < F.lo + F.width) : ¬ (G.lo ≤ i ∧ i < G.lo + G.width) := by
  intro hG
  have hbit : (F.mask &&& G.mask).getLsbD i = false := by simp [h]
  simp [WordField.mask_getLsbD, hF, hG] at hbit

theorem getField_setField_of_disjoint (w : Word) {F G : WordField} (v : Nat) (h : F.mask &&& G.mask = 0#16) :
    getField (setField w F v) G = getField w G := by
  rw [getField, getField, setField_and_of_disjoint w F v h]

theorem setField_comm (w : Word) {F G : WordField} (u v : Nat) (h : F.mask &&& G.mask = 0#16) :
    setField (setField w F u) G v = setField (setField w G v) F u := by
  apply BitVec.eq_of_getLsbD_eq
  intro i _
  simp only [setField_getLsbD]
  by_cases hF : F.lo ≤ i ∧ i < F.lo + F.width
  · rw [if_neg (WordField.not_mem_of_disjoint h hF), if_pos hF, if_pos hF]
  · rw [if_neg hF, if_neg hF]

theorem setField_setField_same (w : Word) (F : WordField) (u v : Nat) :
    setField (setField w F u) F v = setField w F v := by
  apply BitVec.eq_of_getLsbD_eq
  intro i _
  simp only [setField_getLsbD]
  split <;> rfl

/-! ### A list of fields -/

/-- What a prior word holds outside the fields of a list decides the composed word. -/
theorem compose_congr_prior (l : List (WordField × Nat)) (prior prior' : Word)
    (h : prior &&& ~~~(l.foldr (fun p m => p.1.mask ||| m) 0#16) = prior' &&& ~~~(l.foldr (fun p m => p.1.mask ||| m) 0#16)) :
    compose prior l = compose prior' l := by
  induction l generalizing prior prior' with
  | nil =>
    have hones : ~~~(0#16) = BitVec.allOnes 16 := rfl
    simpa only [compose_nil, List.foldr_nil, hones, BitVec.and_allOnes] using h
  | cons p rest ih =>
    refine ih _ _ (BitVec.eq_of_getLsbD_eq fun i hi => ?_)
    have hbit := congrArg (·.getLsbD i) h
    simp only [List.foldr_cons, BitVec.getLsbD_and, BitVec.getLsbD_not, BitVec.getLsbD_or, WordField.mask_getLsbD, hi,
      decide_true, Bool.true_and, ← Bool.decide_and] at hbit ⊢
    simp only [setField_getLsbD]
    split
    · rfl
    · next hout => simpa [hout] using hbit

/-- A list that covers the word leaves nothing of the prior content. -/
theorem compose_prior_irrelevant {l : List (WordField × Nat)} (hcover : l.foldr (fun p m => p.1.mask ||| m) 0#16 = 0xFFFF#16)
    (prior prior' : Word) : compose prior l = compose prior' l :=
  compose_congr_prior l prior prior' (by rw [hcover]; simp)

theorem compose_eq_foldl (prior : Word) (l : List (WordField × Nat)) :
    compose prior l = l.foldl (fun w p => setField w p.1 p.2) prior := by
  induction l generalizing prior with
  | nil => rfl
  | cons p rest ih => exact ih (setField prior p.1 p.2)

/-- The order of disjoint fields is immaterial, because any two of them commute. -/
theorem compose_perm {l l' : List (WordField × Nat)} (hdisjoint : l.Pairwise (fun p q => p.1.mask &&& q.1.mask = 0#16))
    (hperm : l'.Perm l) (prior : Word) : compose prior l' = compose prior l := by
  have hcommute : ∀ ⦃p⦄, p ∈ l → ∀ ⦃q⦄, q ∈ l → ∀ w : Word,
      setField (setField w p.1 p.2) q.1 q.2 = setField (setField w q.1 q.2) p.1 p.2 :=
    List.Pairwise.forall_of_forall_of_flip (fun _ _ _ => rfl) (hdisjoint.imp fun h w => setField_comm w _ _ h)
      (hdisjoint.imp fun h w => (setField_comm w _ _ h).symm)
  rw [compose_eq_foldl, compose_eq_foldl]
  exact (List.Perm.foldl_eq' hperm.symm (fun p hp q hq w => hcommute hp hq w) prior).symm

theorem compose_eq_of_perm_of_cover {l l' : List (WordField × Nat)}
    (hdisjoint : l.Pairwise (fun p q => p.1.mask &&& q.1.mask = 0#16))
    (hcover : l.foldr (fun p m => p.1.mask ||| m) 0#16 = 0xFFFF#16) (hperm : l'.Perm l) (prior prior' : Word) :
    compose prior l = compose prior' l' := by
  rw [compose_perm hdisjoint hperm, compose_prior_irrelevant hcover prior prior']

/-- The fields of the register view are disjoint, whatever their values. -/
theorem registerFields_pairwise (a b n m o : Nat) :
    [(WordField.opA, a), (.opB, b), (.opN, n), (.op1, m), (.op0, o)].Pairwise (fun p q => p.1.mask &&& q.1.mask = 0#16) :=
  (List.pairwise_map (f := Prod.fst) (R := fun F G : WordField => F.mask &&& G.mask = 0#16)).mp
    (by decide : [WordField.opA, .opB, .opN, .op1, .op0].Pairwise fun F G => F.mask &&& G.mask = 0#16)

/-- The fields of the immediate view are disjoint, whatever their values. -/
theorem immediateFields_pairwise (a v m o : Nat) :
    [(WordField.opA, a), (.opimm, v), (.op1, m), (.op0, o)].Pairwise (fun p q => p.1.mask &&& q.1.mask = 0#16) :=
  (List.pairwise_map (f := Prod.fst) (R := fun F G : WordField => F.mask &&& G.mask = 0#16)).mp
    (by decide : [WordField.opA, .opimm, .op1, .op0].Pairwise fun F G => F.mask &&& G.mask = 0#16)

/-- The register view's fields in any order, with values of any size. -/
theorem compose_perm_register {l : List (WordField × Nat)} {a b n m o : Nat}
    (hperm : l.Perm [(.opA, a), (.opB, b), (.opN, n), (.op1, m), (.op0, o)]) (prior : Word) :
    compose prior l = assembleRegister (BitVec.ofNat 4 o) (BitVec.ofNat 3 a) (BitVec.ofNat 3 m) (BitVec.ofNat 3 n)
      (BitVec.ofNat 3 b) := by
  rw [compose_perm (registerFields_pairwise a b n m o) hperm, ← compose_register prior]
  simp only [compose, BitVec.toNat_ofNat]
  rw [← setField_mod_width _ .op0 o, ← setField_mod_width _ .op1 m, ← setField_mod_width _ .opN n,
    ← setField_mod_width _ .opB b, ← setField_mod_width _ .opA a]
  rfl

/-- The immediate view's fields in any order, with values of any size. -/
theorem compose_perm_immediate {l : List (WordField × Nat)} {a v m o : Nat}
    (hperm : l.Perm [(.opA, a), (.opimm, v), (.op1, m), (.op0, o)]) (prior : Word) :
    compose prior l = assembleImmediate (BitVec.ofNat 4 o) (BitVec.ofNat 3 a) (BitVec.ofNat 3 m) (BitVec.ofNat 6 v) := by
  rw [compose_perm (immediateFields_pairwise a v m o) hperm, ← compose_immediate prior]
  simp only [compose, BitVec.toNat_ofNat]
  rw [← setField_mod_width _ .op0 o, ← setField_mod_width _ .op1 m, ← setField_mod_width _ .opA a]
  rfl

/-- Settles O5: laws 1 to 3 bit by bit; law 4 from the commutation of disjoint fields and the cover of the word. -/
theorem compositorLawsHold : Obligations.CompositorLawsHold :=
  ⟨getField_setField_same,
    fun w _ _ u v h => ⟨getField_setField_of_disjoint w _ h, setField_comm w u v h⟩,
    setField_setField_same,
    fun _ _ prior prior' hdisjoint hcover hperm => compose_eq_of_perm_of_cover hdisjoint hcover hperm prior prior',
    fun _ prior _ _ _ _ _ hperm => compose_perm_register hperm prior,
    fun _ prior _ _ _ _ hperm => compose_perm_immediate hperm prior⟩

end Sys2Proof

/-!
Encoding and decoding: the fields of an assembled word, the forms and their words, and the round trips in both directions.
-/
namespace Sys2Proof

/-! ### The fields of an assembled word -/

/-- A field named once, beside fields disjoint from it, reads as its value. -/
theorem getField_compose {l : List (WordField × Nat)} (hdisjoint : l.Pairwise (fun p q => p.1.mask &&& q.1.mask = 0#16))
    {F : WordField} {v : Nat} (hmem : (F, v) ∈ l) (prior : Word) : getField (compose prior l) F = v % 2 ^ F.width := by
  induction l generalizing prior with
  | nil => exact absurd hmem List.not_mem_nil
  | cons p rest ih =>
    obtain ⟨hp, hrest⟩ := List.pairwise_cons.mp hdisjoint
    rcases List.mem_cons.mp hmem with rfl | hmem
    · have hkeep : ∀ q ∈ rest, q.1.mask &&& F.mask = 0#16 := fun q hq => by rw [BitVec.and_comm]; exact hp q hq
      rw [compose_cons, getField, compose_and_of_disjoint _ _ hkeep, ← getField, getField_setField_same]
    · exact ih hrest hmem _

/-- The fields of the register view. -/
theorem getField_assembleRegister (op0 : Code) (opA op1 opN opB : Reg) {F : WordField} {v : Nat}
    (hmem : (F, v) ∈ [(WordField.opA, opA.toNat), (.opB, opB.toNat), (.opN, opN.toNat), (.op1, op1.toNat),
      (.op0, op0.toNat)]) :
    getField (assembleRegister op0 opA op1 opN opB) F = v % 2 ^ F.width := by
  rw [← compose_register 0#16]
  exact getField_compose (registerFields_pairwise _ _ _ _ _) hmem _

/-- The fields of the immediate view. -/
theorem getField_assembleImmediate (op0 : Code) (opA op1 : Reg) (opimm : BitVec 6) {F : WordField} {v : Nat}
    (hmem : (F, v) ∈ [(WordField.opA, opA.toNat), (.opimm, opimm.toNat), (.op1, op1.toNat), (.op0, op0.toNat)]) :
    getField (assembleImmediate op0 opA op1 opimm) F = v % 2 ^ F.width := by
  have himm : BitVec.ofNat 6 opimm.toNat = opimm := by simp
  rw [← himm, ← compose_immediate 0#16]
  exact getField_compose (immediateFields_pairwise _ _ _ _) hmem _

section RegisterView
variable (op0 : Code) (opA op1 opN opB : Reg)

@[simp] theorem getField_op0_assembleRegister : getField (assembleRegister op0 opA op1 opN opB) .op0 = op0.toNat :=
  (getField_assembleRegister op0 opA op1 opN opB (by simp)).trans (Nat.mod_eq_of_lt op0.isLt)

@[simp] theorem getField_opA_assembleRegister : getField (assembleRegister op0 opA op1 opN opB) .opA = opA.toNat :=
  (getField_assembleRegister op0 opA op1 opN opB (by simp)).trans (Nat.mod_eq_of_lt opA.isLt)

@[simp] theorem getField_op1_assembleRegister : getField (assembleRegister op0 opA op1 opN opB) .op1 = op1.toNat :=
  (getField_assembleRegister op0 opA op1 opN opB (by simp)).trans (Nat.mod_eq_of_lt op1.isLt)

@[simp] theorem getField_opN_assembleRegister : getField (assembleRegister op0 opA op1 opN opB) .opN = opN.toNat :=
  (getField_assembleRegister op0 opA op1 opN opB (by simp)).trans (Nat.mod_eq_of_lt opN.isLt)

@[simp] theorem getField_opB_assembleRegister : getField (assembleRegister op0 opA op1 opN opB) .opB = opB.toNat :=
  (getField_assembleRegister op0 opA op1 opN opB (by simp)).trans (Nat.mod_eq_of_lt opB.isLt)

end RegisterView

section ImmediateView
variable (op0 : Code) (opA op1 : Reg) (opimm : BitVec 6)

@[simp] theorem getField_op0_assembleImmediate : getField (assembleImmediate op0 opA op1 opimm) .op0 = op0.toNat :=
  (getField_assembleImmediate op0 opA op1 opimm (by simp)).trans (Nat.mod_eq_of_lt op0.isLt)

@[simp] theorem getField_opA_assembleImmediate : getField (assembleImmediate op0 opA op1 opimm) .opA = opA.toNat :=
  (getField_assembleImmediate op0 opA op1 opimm (by simp)).trans (Nat.mod_eq_of_lt opA.isLt)

@[simp] theorem getField_op1_assembleImmediate : getField (assembleImmediate op0 opA op1 opimm) .op1 = op1.toNat :=
  (getField_assembleImmediate op0 opA op1 opimm (by simp)).trans (Nat.mod_eq_of_lt op1.isLt)

@[simp] theorem getField_opimm_assembleImmediate : getField (assembleImmediate op0 opA op1 opimm) .opimm = opimm.toNat :=
  (getField_assembleImmediate op0 opA op1 opimm (by simp)).trans (Nat.mod_eq_of_lt opimm.isLt)

end ImmediateView

/-- Every word is the register view's formula of its own fields. -/
theorem assembleRegister_getField (w : Word) :
    assembleRegister (BitVec.ofNat 4 (getField w .op0)) (BitVec.ofNat 3 (getField w .opA))
      (BitVec.ofNat 3 (getField w .op1)) (BitVec.ofNat 3 (getField w .opN)) (BitVec.ofNat 3 (getField w .opB)) = w := by
  rw [← compose_perm_register (List.Perm.refl _) w]
  simp [setField_getField]

/-- Every word is the immediate view's formula of its own fields. -/
theorem assembleImmediate_getField (w : Word) :
    assembleImmediate (BitVec.ofNat 4 (getField w .op0)) (BitVec.ofNat 3 (getField w .opA))
      (BitVec.ofNat 3 (getField w .op1)) (BitVec.ofNat 6 (getField w .opimm)) = w := by
  rw [← compose_perm_immediate (List.Perm.refl _) w]
  simp [setField_getField]

/-! ### Forms and their words (R86, R95) -/

/-- The word of a form, by R86; for no form a word with `op1` = 7, which no command writes. -/
def Form.word (pcIndex : Reg) : Form → Word
  | .alu op dst src => assembleRegister op dst 4#3 0#3 src
  | .set reg => assembleRegister 9#4 reg 4#3 1#3 reg
  | .load reg => assembleRegister 9#4 reg 4#3 2#3 reg
  | .store reg => assembleRegister 13#4 reg 4#3 3#3 reg
  | .branch cond back mag => assembleImmediate cond pcIndex (if back then 1#3 else 0#3) mag
  | .goto high => assembleImmediate 15#4 pcIndex 2#3 high
  | .notEmitted => assembleRegister 0#4 0#3 7#3 0#3 0#3

/-- The number of words of a form (R93). -/
def Form.length : Form → Nat
  | .alu _ _ _ => 1
  | .set _ => 2
  | .load _ => 2
  | .store _ => 2
  | .branch _ _ _ => 1
  | .goto _ => 2
  | .notEmitted => 1

/-- The recogniser gives back the form and its fields. -/
@[simp] theorem formOf_word (pcIndex : Reg) (f : Form) : formOf pcIndex (f.word pcIndex) = f := by
  cases f with
  | branch cond back mag => cases back <;> simp [Form.word, formOf]
  | _ => simp [Form.word, formOf]

@[simp] theorem lengthOf_word (pcIndex : Reg) (f : Form) : lengthOf (f.word pcIndex) = f.length := by
  cases f with
  | branch cond back mag => cases back <;> simp [Form.word, lengthOf, Form.length]
  | _ => simp [Form.word, lengthOf, Form.length]

/-- A word the recogniser accepts is the word of its form. -/
theorem word_formOf {pcIndex : Reg} {w : Word} (h : formOf pcIndex w ≠ .notEmitted) :
    (formOf pcIndex w).word pcIndex = w := by
  have hreg := assembleRegister_getField w
  have himm := assembleImmediate_getField w
  simp only [formOf] at h ⊢
  split_ifs at h ⊢ with hop1 halu hset hload hstore hbranch hgoto
  · rwa [hop1, halu] at hreg
  · obtain ⟨hopN, hop0, hopA⟩ := hset
    rwa [hop1, hopN, hop0, hopA] at hreg
  · obtain ⟨hopN, hop0, hopA⟩ := hload
    rwa [hop1, hopN, hop0, hopA] at hreg
  · obtain ⟨hopN, hop0, hopA⟩ := hstore
    rwa [hop1, hopN, hop0, hopA] at hreg
  · exact absurd rfl h
  · obtain ⟨hback | hback, hopA⟩ := hbranch <;> rw [hback, hopA] at himm <;> rwa [hback]
  · obtain ⟨hop1, hopA, hop0⟩ := hgoto
    rwa [hop1, hopA, hop0] at himm
  · exact absurd rfl h

/-! ### From instructions to words and back -/

section Decode
variable (pcIndex : Reg) (pos : Cursor) (rest : List Word)

/-- A word of a two-word form takes the next word as its literal. -/
theorem decodeAt_set (reg : Reg) (literal : Word) :
    decodeAt pcIndex pos ((Form.set reg).word pcIndex :: literal :: rest) = .ok (.set reg literal, rest) := by
  simp [decodeAt, withLiteral]

theorem decodeAt_load (reg : Reg) (literal : Word) :
    decodeAt pcIndex pos ((Form.load reg).word pcIndex :: literal :: rest) =
      .ok (.load reg (literal.setWidth 32), rest) := by
  simp [decodeAt, withLiteral]

theorem decodeAt_store (reg : Reg) (literal : Word) :
    decodeAt pcIndex pos ((Form.store reg).word pcIndex :: literal :: rest) =
      .ok (.store (literal.setWidth 32) reg, rest) := by
  simp [decodeAt, withLiteral]

theorem decodeAt_goto (high : BitVec 6) (literal : Word) :
    decodeAt pcIndex pos ((Form.goto high).word pcIndex :: literal :: rest) =
      .ok (.goto (gotoTarget high literal), rest) := by
  simp [decodeAt, withLiteral]

/-- An ALU word decodes to the row of its code. -/
theorem decodeAt_encodeAlu {op : Code} {dst src : Reg} {i : Instr} (hrow : aluInstr? op dst src = some i) :
    decodeAt pcIndex pos (encodeAlu op dst src ++ rest) = .ok (i, rest) := by
  have hword : encodeAlu op dst src = [(Form.alu op dst src).word pcIndex] := rfl
  simp [hword, decodeAt, hrow]

/-- A branch word decodes to the row of its condition, with the target it denotes. -/
theorem decodeAt_branch {cond : Code} {back : Bool} {mag : BitVec 6} {target : Addr} {i : Instr}
    (htarget : branchTarget pos back mag = target.toNat) (hrow : branchInstr? cond target = some i) :
    decodeAt pcIndex pos ((Form.branch cond back mag).word pcIndex :: rest) = .ok (i, rest) := by
  have hnonneg : ¬ ((target.toNat : Int) < 0) := by omega
  have haddr : BitVec.ofInt 32 (target.toNat : Int) = target := by simp
  simp only [decodeAt, formOf_word, htarget, haddr, hrow, if_neg hnonneg]

end Decode

/-- The magnitude over integers, as the statements write it (R190). -/
theorem branchMag_eq (pos : Cursor) (target : Addr) :
    Machine.branchMag pos target = ((target.toNat : Int) - ((pos.toNat : Int) + 1)).natAbs := rfl

theorem inBranchRange_iff (pos : Cursor) (target : Addr) :
    Addr.inBranchRange pos target = true ↔ Machine.branchMag pos target ≤ 63 := by
  simp only [Addr.inBranchRange, branchMag_eq, decide_eq_true_eq]
  omega

/-- The branch encoder writes the direction flag and the magnitude modulo 64 (R87). -/
theorem encodeBranch_eq_word (pcIndex : Reg) (pos : Cursor) (cond : Code) (target : Addr) :
    encodeBranch pcIndex pos cond target =
      [(Form.branch cond (decide (target.toNat < pos.toNat + 1)) (BitVec.ofNat 6 (Machine.branchMag pos target))).word
        pcIndex] := by
  rw [branchMag_eq, encodeBranch]
  split
  · next hback =>
    have hmag : ((target.toNat : Int) - ((pos.toNat : Int) + 1)).natAbs = pos.toNat + 1 - target.toNat := by omega
    simp [hback, hmag, Form.word]
  · next hfwd =>
    have hmag : ((target.toNat : Int) - ((pos.toNat : Int) + 1)).natAbs = target.toNat - (pos.toNat + 1) := by omega
    simp [hfwd, hmag, Form.word]

/-- In range the direction and the magnitude denote the target exactly (R191, R196). -/
theorem branchTarget_of_branchMag_le {pos : Cursor} {target : Addr} (h : Machine.branchMag pos target ≤ 63) :
    branchTarget pos (decide (target.toNat < pos.toNat + 1)) (BitVec.ofNat 6 (Machine.branchMag pos target)) =
      target.toNat := by
  have hmag : (BitVec.ofNat 6 (Machine.branchMag pos target)).toNat = Machine.branchMag pos target := by
    rw [BitVec.toNat_ofNat]; omega
  unfold branchTarget
  rw [hmag]
  rw [branchMag_eq] at *
  split
  · next hback => have := of_decide_eq_true hback; omega
  · next hfwd => have := of_decide_eq_false (Bool.eq_false_iff.mpr hfwd); omega

theorem decodeAt_encodeBranch (pcIndex : Reg) {pos : Cursor} (rest : List Word) {cond : Code} {target : Addr} {i : Instr}
    (hrange : Addr.inBranchRange pos target = true) (hrow : branchInstr? cond target = some i) :
    decodeAt pcIndex pos (encodeBranch pcIndex pos cond target ++ rest) = .ok (i, rest) := by
  rw [encodeBranch_eq_word]
  exact decodeAt_branch pcIndex pos rest (branchTarget_of_branchMag_le ((inBranchRange_iff pos target).mp hrange)) hrow

/-- A literal word holds an address below 2^16 exactly (R141, R142). -/
theorem setWidth_literal_of_fits {address : Addr} (h : Addr.fitsLiteral address = true) :
    (address.setWidth 16).setWidth 32 = address := by
  have hlt : address.toNat < 65536 := of_decide_eq_true h
  apply BitVec.eq_of_toNat_eq
  simp only [BitVec.toNat_setWidth]
  omega

/-- The two words of a far jump put together, as numbers. -/
theorem gotoTarget_toNat (high : BitVec 6) (literal : Word) :
    (gotoTarget high literal).toNat = high.toNat * 65536 + literal.toNat := by
  have hlow : literal.toNat < 2 ^ 16 := literal.isLt
  have hhigh := high.isLt
  have hshift : (high.toNat <<< 16) % 2 ^ 32 = high.toNat <<< 16 := by
    rw [Nat.shiftLeft_eq]; omega
  rw [gotoTarget, BitVec.toNat_or, BitVec.toNat_shiftLeft, BitVec.toNat_setWidth_of_le (by decide),
    BitVec.toNat_setWidth_of_le (by decide), hshift, ← Nat.shiftLeft_add_eq_or_of_lt hlow, Nat.shiftLeft_eq]

/-- The two words of a far jump hold a target below 2^22 exactly (R210, R211). -/
theorem gotoTarget_of_fits {target : Addr} (h : target.toNat < 4194304) :
    gotoTarget (BitVec.ofNat 6 (target.toNat / 65536)) (BitVec.ofNat 16 (target.toNat % 65536)) = target := by
  apply BitVec.eq_of_toNat_eq
  rw [gotoTarget_toNat, BitVec.toNat_ofNat, BitVec.toNat_ofNat]
  omega

/-- The encoder's two words of a far jump, by quotient and remainder (R210). -/
theorem encodeAt_goto_eq_word (pcIndex : Reg) (pos : Cursor) (target : Addr) :
    encodeAt pcIndex pos (.goto target) =
      [(Form.goto (BitVec.ofNat 6 (target.toNat / 65536))).word pcIndex, BitVec.ofNat 16 (target.toNat % 65536)] := by
  have hhigh : (target >>> 16).setWidth 6 = BitVec.ofNat 6 (target.toNat / 65536) :=
    BitVec.eq_of_toNat_eq (by simp [Nat.shiftRight_eq_div_pow])
  have hlow : target.setWidth 16 = BitVec.ofNat 16 (target.toNat % 65536) := BitVec.eq_of_toNat_eq (by simp)
  rw [encodeAt, hhigh, hlow]
  rfl

/-- Settles O7: the recogniser gives back the form of every word the encoder writes, and operands that fit are read off
their fields exactly. -/
theorem decodingAnEncodedInstructionGivesItBack : Obligations.DecodingAnEncodedInstructionGivesItBack := by
  intro i pcIndex pos rest hwf
  cases i with
  | set reg value => exact decodeAt_set pcIndex pos rest reg value
  | load reg address =>
    have hdecode := decodeAt_load pcIndex pos rest reg (address.setWidth 16)
    rwa [setWidth_literal_of_fits hwf] at hdecode
  | store address reg =>
    have hdecode := decodeAt_store pcIndex pos rest reg (address.setWidth 16)
    rwa [setWidth_literal_of_fits hwf] at hdecode
  | bne target => exact decodeAt_encodeBranch pcIndex rest hwf rfl
  | beq target => exact decodeAt_encodeBranch pcIndex rest hwf rfl
  | bra target => exact decodeAt_encodeBranch pcIndex rest hwf rfl
  | goto target =>
    rw [encodeAt_goto_eq_word]
    have hdecode := decodeAt_goto pcIndex pos rest (BitVec.ofNat 6 (target.toNat / 65536))
      (BitVec.ofNat 16 (target.toNat % 65536))
    rwa [gotoTarget_of_fits (of_decide_eq_true hwf)] at hdecode
  | _ dst src => exact decodeAt_encodeAlu pcIndex pos rest rfl

/-! ### From words to instructions and back -/

/-- A row of an ALU code: the instruction is encoded by the ALU form, whatever its operands. -/
theorem encodeAt_of_aluInstr? {op : Code} {dst src : Reg} {i : Instr} (h : aluInstr? op dst src = some i)
    (pcIndex : Reg) (pos : Cursor) : encodeAt pcIndex pos i = encodeAlu op dst src ∧ i.wellFormed pos = true := by
  have hop : op = BitVec.ofNat 4 op.toNat := by simp
  unfold aluInstr? at h
  split at h <;> cases h <;> next hcode => rw [hop, hcode]; exact ⟨rfl, rfl⟩

/-- A row of a condition: the instruction is encoded by the branch form, and its operand fits where it is in range. -/
theorem encodeAt_of_branchInstr? {cond : Code} {target : Addr} {i : Instr} (h : branchInstr? cond target = some i)
    (pcIndex : Reg) (pos : Cursor) :
    encodeAt pcIndex pos i = encodeBranch pcIndex pos cond target ∧ i.wellFormed pos = Addr.inBranchRange pos target := by
  have hcond : cond = BitVec.ofNat 4 cond.toNat := by simp
  unfold branchInstr? at h
  split at h <;> cases h <;> next hcode => rw [hcond, hcode]; exact ⟨rfl, rfl⟩

/-- What a two-word form needs to decode: a literal word behind it. -/
theorem withLiteral_eq_ok {rest rest' : List Word} {make : Word → Instr} {i : Instr}
    (h : withLiteral rest make = .ok (i, rest')) : ∃ literal, rest = literal :: rest' ∧ i = make literal := by
  cases rest with
  | nil => simp [withLiteral] at h
  | cons literal behind =>
    simp only [withLiteral, Except.ok.injEq, Prod.mk.injEq] at h
    exact ⟨literal, by rw [h.2], h.1.symm⟩

/-- The instruction that a form stands for at `pos`, with its literal word where it has one. -/
def Form.Denotes (pos : Cursor) (rest : List Word) (i : Instr) (rest' : List Word) : Form → Prop
  | .alu op dst src => aluInstr? op dst src = some i ∧ rest = rest'
  | .set reg => ∃ literal, rest = literal :: rest' ∧ i = .set reg literal
  | .load reg => ∃ literal, rest = literal :: rest' ∧ i = .load reg (literal.setWidth 32)
  | .store reg => ∃ literal, rest = literal :: rest' ∧ i = .store (literal.setWidth 32) reg
  | .branch cond back mag =>
    branchInstr? cond (BitVec.ofInt 32 (branchTarget pos back mag)) = some i ∧ 0 ≤ branchTarget pos back mag ∧
      rest = rest'
  | .goto high => ∃ literal, rest = literal :: rest' ∧ i = .goto (gotoTarget high literal)
  | .notEmitted => False

/-- Whatever decodes is the word of a form, and decodes to what that form denotes. -/
theorem decodeAt_eq_ok {pcIndex : Reg} {pos : Cursor} {w : Word} {rest rest' : List Word} {i : Instr}
    (h : decodeAt pcIndex pos (w :: rest) = .ok (i, rest')) :
    ∃ f : Form, w = f.word pcIndex ∧ f.Denotes pos rest i rest' := by
  have hword : formOf pcIndex w ≠ .notEmitted → w = (formOf pcIndex w).word pcIndex := fun hf => (word_formOf hf).symm
  rw [decodeAt] at h
  generalize formOf pcIndex w = f at h hword
  refine ⟨f, hword ?_, ?_⟩
  · rintro rfl
    cases h
  cases f with
  | set reg => exact withLiteral_eq_ok h
  | load reg => exact withLiteral_eq_ok h
  | store reg => exact withLiteral_eq_ok h
  | goto high => exact withLiteral_eq_ok h
  | notEmitted => cases h
  | alu op dst src =>
    dsimp only at h
    split at h
    · next hrow => cases h; exact ⟨hrow, rfl⟩
    · cases h
  | branch cond back mag =>
    dsimp only at h
    split at h
    · next hrow =>
      split at h
      · cases h
      · next hnonneg => cases h; exact ⟨hrow, Int.not_lt.mp hnonneg, rfl⟩
    · cases h

/-- Apart from "backward by zero", the target a branch word denotes has that word's direction and magnitude. -/
theorem branch_fields_of_target {pos : Cursor} {back : Bool} {mag : BitVec 6} {target : Addr}
    (htarget : (target.toNat : Int) = branchTarget pos back mag) (hmag : back = true → mag ≠ 0#6) :
    decide (target.toNat < pos.toNat + 1) = back ∧ Machine.branchMag pos target = mag.toNat := by
  rw [branchMag_eq]
  cases back with
  | false =>
    have ht : (target.toNat : Int) = pos.toNat + 1 + mag.toNat := htarget
    exact ⟨decide_eq_false (by omega), by omega⟩
  | true =>
    have ht : (target.toNat : Int) = pos.toNat + 1 - mag.toNat := htarget
    have hpos : mag.toNat ≠ 0 := fun h0 => hmag rfl (BitVec.eq_of_toNat_eq h0)
    exact ⟨decide_eq_true (by omega), by omega⟩

theorem branchTarget_lt (pos : Cursor) (back : Bool) (mag : BitVec 6) : branchTarget pos back mag < 2 ^ 32 := by
  have hpos := pos.isLt
  have hmag := mag.isLt
  unfold branchTarget
  split <;> omega

/-- Encoding what a form denotes gives its words back, but for the backward-by-zero branch. -/
theorem encodeAt_of_denotes {pcIndex : Reg} {pos : Cursor} {f : Form} {rest rest' : List Word} {i : Instr}
    (h : f.Denotes pos rest i rest') (hback : ∀ cond, f ≠ .branch cond true 0#6) :
    encodeAt pcIndex pos i ++ rest' = f.word pcIndex :: rest ∧ i.wellFormed pos = true := by
  have hliteral : ∀ literal : Word, (literal.setWidth 32).setWidth 16 = literal := fun literal => by simp
  have hfits : ∀ literal : Word, Addr.fitsLiteral (literal.setWidth 32) = true := fun literal => by
    have hlt := literal.isLt
    simp only [Addr.fitsLiteral, decide_eq_true_eq, BitVec.toNat_setWidth]
    omega
  cases f with
  | alu op dst src =>
    obtain ⟨hrow, rfl⟩ := h
    obtain ⟨hwords, hwf⟩ := encodeAt_of_aluInstr? hrow pcIndex pos
    exact ⟨by rw [hwords]; rfl, hwf⟩
  | set reg =>
    obtain ⟨literal, rfl, rfl⟩ := h
    exact ⟨rfl, rfl⟩
  | load reg =>
    obtain ⟨literal, rfl, rfl⟩ := h
    exact ⟨by rw [encodeAt, hliteral]; rfl, hfits literal⟩
  | store reg =>
    obtain ⟨literal, rfl, rfl⟩ := h
    exact ⟨by rw [encodeAt, hliteral]; rfl, hfits literal⟩
  | branch cond back mag =>
    obtain ⟨hrow, hnonneg, rfl⟩ := h
    obtain ⟨hwords, hwf⟩ := encodeAt_of_branchInstr? hrow pcIndex pos
    have htarget : ((BitVec.ofInt 32 (branchTarget pos back mag)).toNat : Int) = branchTarget pos back mag := by
      have hlt := branchTarget_lt pos back mag
      rw [BitVec.toNat_ofInt]
      omega
    have hmag : back = true → mag ≠ 0#6 := fun hb h0 => hback cond (by rw [hb, h0])
    obtain ⟨hdir, hmagnitude⟩ := branch_fields_of_target htarget hmag
    refine ⟨?_, ?_⟩
    · rw [hwords, encodeBranch_eq_word, hdir, hmagnitude]
      simp
    · have hlt := mag.isLt
      rw [hwf, inBranchRange_iff, hmagnitude]
      omega
  | goto high =>
    obtain ⟨literal, rfl, rfl⟩ := h
    have hnum := gotoTarget_toNat high literal
    have hhigh := high.isLt
    have hlow := literal.isLt
    have hdiv : BitVec.ofNat 6 ((gotoTarget high literal).toNat / 65536) = high :=
      BitVec.eq_of_toNat_eq (by rw [BitVec.toNat_ofNat]; omega)
    have hmod : BitVec.ofNat 16 ((gotoTarget high literal).toNat % 65536) = literal :=
      BitVec.eq_of_toNat_eq (by rw [BitVec.toNat_ofNat]; omega)
    exact ⟨by rw [encodeAt_goto_eq_word, hdiv, hmod]; rfl, decide_eq_true (by omega)⟩
  | notEmitted => exact h.elim

/-- Settles O8: what decodes is a form's word, and the form's instruction encodes to that word. -/
theorem encodingADecodedInstructionGivesTheWordsBack : Obligations.EncodingADecodedInstructionGivesTheWordsBack := by
  intro i pcIndex pos w rest rest' hdecode hnotBackZero
  obtain ⟨f, rfl, hdenotes⟩ := decodeAt_eq_ok hdecode
  refine encodeAt_of_denotes hdenotes ?_
  rintro cond rfl
  exact hnotBackZero ⟨getField_op1_assembleImmediate _ _ _ _, getField_opimm_assembleImmediate _ _ _ _⟩

/-! ### The opcode table (R98) -/

/-- Two rows whose fixed bits agree where both fix a bit are one row. -/
theorem opcodeRows_disjoint :
    ∀ r ∈ opcodeRows, ∀ r' ∈ opcodeRows, r.pattern &&& r'.mask = r'.pattern &&& r.mask → r = r' := by
  decide

theorem hasRow_of_mem {w : Word} {r : Row} (hr : r ∈ opcodeRows) (hw : w &&& r.mask = r.pattern) :
    w.hasRow r.mnemonic = true :=
  List.any_eq_true.mpr ⟨r, hr, by simp [hw]⟩

/-- The register rows fix all bits but the two registers. -/
theorem assembleRegister_and_row_mask (op0 : Code) (opA op1 opN opB : Reg) :
    assembleRegister op0 opA op1 opN opB &&& 0xF1F8#16 = assembleRegister op0 0#3 op1 opN 0#3 := by
  apply BitVec.eq_of_getLsbD_eq
  intro i hi
  simp only [assembleRegister, BitVec.getLsbD_and, BitVec.getLsbD_or, BitVec.getLsbD_shiftLeft, BitVec.getLsbD_setWidth]
  interval_cases i <;> simp

/-- The goto row fixes all bits but the high part. -/
theorem assembleImmediate_and_goto_mask (op0 : Code) (opA op1 : Reg) (high : BitVec 6) :
    assembleImmediate op0 opA op1 high &&& 0xFFC0#16 = assembleImmediate op0 opA op1 0#6 := by
  apply BitVec.eq_of_getLsbD_eq
  intro i hi
  simp only [assembleImmediate, BitVec.getLsbD_and, BitVec.getLsbD_or, BitVec.getLsbD_shiftLeft, BitVec.getLsbD_setWidth]
  interval_cases i <;> simp

/-- A branch row fixes all bits but the direction and the magnitude. -/
theorem assembleImmediate_and_branch_mask (op0 : Code) (opA : Reg) (back : Bool) (mag : BitVec 6) :
    assembleImmediate op0 opA (if back then 1#3 else 0#3) mag &&& 0xFF80#16 = assembleImmediate op0 opA 0#3 0#6 := by
  have hmask : (0xFF80#16 : Word) = 0xFFC0#16 &&& 0xFF80#16 := rfl
  rw [hmask, ← BitVec.and_assoc, assembleImmediate_and_goto_mask]
  decide +revert

theorem row_of_aluInstr? {op : Code} {dst src : Reg} {i : Instr} (h : aluInstr? op dst src = some i) :
    (⟨i.mnemonic, assembleRegister op 0#3 4#3 0#3 0#3, 0xF1F8#16⟩ : Row) ∈ opcodeRows := by
  have hop : op = BitVec.ofNat 4 op.toNat := by simp
  unfold aluInstr? at h
  split at h <;> cases h <;> next hcode => rw [hop, hcode, Instr.mnemonic]; decide

theorem row_of_branchInstr? {cond : Code} {target : Addr} {i : Instr} (h : branchInstr? cond target = some i) :
    (⟨i.mnemonic, assembleImmediate cond 7#3 0#3 0#6, 0xFF80#16⟩ : Row) ∈ opcodeRows := by
  have hcond : cond = BitVec.ofNat 4 cond.toNat := by simp
  unfold branchInstr? at h
  split at h <;> cases h <;> next hcode => rw [hcond, hcode, Instr.mnemonic]; decide

/-- With `PC_INDEX` = 7 the word of a form has the fixed bits of the row it denotes. -/
theorem hasRow_of_denotes {pos : Cursor} {f : Form} {rest rest' : List Word} {i : Instr}
    (h : f.Denotes pos rest i rest') : (f.word 7#3).hasRow i.mnemonic = true := by
  cases f with
  | alu op dst src => exact hasRow_of_mem (row_of_aluInstr? h.1) (assembleRegister_and_row_mask _ _ _ _ _)
  | set reg =>
    obtain ⟨literal, -, rfl⟩ := h
    exact hasRow_of_mem (r := ⟨"SET", 0x9108#16, 0xF1F8#16⟩) (by decide) (assembleRegister_and_row_mask _ _ _ _ _)
  | load reg =>
    obtain ⟨literal, -, rfl⟩ := h
    exact hasRow_of_mem (r := ⟨"LOAD", 0x9110#16, 0xF1F8#16⟩) (by decide) (assembleRegister_and_row_mask _ _ _ _ _)
  | store reg =>
    obtain ⟨literal, -, rfl⟩ := h
    exact hasRow_of_mem (r := ⟨"STORE", 0xD118#16, 0xF1F8#16⟩) (by decide) (assembleRegister_and_row_mask _ _ _ _ _)
  | branch cond back mag => exact hasRow_of_mem (row_of_branchInstr? h.1) (assembleImmediate_and_branch_mask _ _ _ _)
  | goto high =>
    obtain ⟨literal, -, rfl⟩ := h
    exact hasRow_of_mem (r := ⟨"GOTO", 0xFE80#16, 0xFFC0#16⟩) (by decide) (assembleImmediate_and_goto_mask _ _ _ _)
  | notEmitted => exact h.elim

/-- Settles O9: a word with the fixed bits of two rows makes those bits agree; a word that decodes is the word of a form. -/
theorem opcodeRowsAreDisjointAndDecodingKeepsThem : Obligations.OpcodeRowsAreDisjointAndDecodingKeepsThem := by
  refine ⟨fun w r r' hr hr' hw hw' => opcodeRows_disjoint r hr r' hr' ?_, fun i pos w rest rest' hdecode => ?_⟩
  · rw [← hw, ← hw', BitVec.and_assoc, BitVec.and_assoc, BitVec.and_comm r.mask]
  · obtain ⟨f, rfl, hdenotes⟩ := decodeAt_eq_ok hdecode
    exact hasRow_of_denotes hdenotes

/-- Settles O10: every emitted instruction word is the word of a form, which the recogniser and the length give back. -/
theorem everyEmittedWordIsRecognised : Obligations.EveryEmittedWordIsRecognised :=
  ⟨fun pcIndex reg => ⟨formOf_word pcIndex (.set reg), lengthOf_word pcIndex (.set reg)⟩,
    fun pcIndex reg => ⟨formOf_word pcIndex (.load reg), lengthOf_word pcIndex (.load reg)⟩,
    fun pcIndex reg => ⟨formOf_word pcIndex (.store reg), lengthOf_word pcIndex (.store reg)⟩,
    fun pcIndex op dst src =>
      ⟨_, rfl, formOf_word pcIndex (.alu op dst src), lengthOf_word pcIndex (.alu op dst src)⟩,
    fun pcIndex pos cond target =>
      ⟨_, encodeBranch_eq_word pcIndex pos cond target, formOf_word pcIndex _, lengthOf_word pcIndex _⟩,
    fun pcIndex pos target =>
      ⟨_, encodeAt_goto_eq_word pcIndex pos target, formOf_word pcIndex _, lengthOf_word pcIndex _⟩⟩

/-- Settles O6: eight closed words, each decoded by evaluation. -/
theorem specWordsDecodeToTheirInstructions : Obligations.SpecWordsDecodeToTheirInstructions :=
  ⟨rfl, rfl, rfl, rfl, rfl, rfl, rfl, rfl⟩

end Sys2Proof

/-!
The seven emission commands said once: the strict error of the table, or the words of the encoder, or the overrun of the mode.
-/
namespace Sys2Proof.Machine

/-! ### The outcome of an emission -/

/-- How an emission of `ws` ends when `error?` is the error STRICT would raise (R251, R253, R254). -/
def State.emissionOutcome (error? : Option EncodingError) (ws : List Word) (s : State) : Out :=
  match s.cfg.mode, error? with
  | .strict, some e => .next (s.rejected e)
  | .strict, none => .next (s.emitted ws)
  | .compat, _ => if s.cursor.toNat + ws.length ≤ memWords then .next (s.emitted ws) else .fault .overrun

section Outcome
variable {s : State} {error? : Option EncodingError} {ws : List Word}

theorem emissionOutcome_strict_error (hm : s.cfg.mode = .strict) (e : EncodingError) :
    s.emissionOutcome (some e) ws = .next (s.rejected e) := by
  simp only [State.emissionOutcome, hm]

theorem emissionOutcome_strict_ok (hm : s.cfg.mode = .strict) : s.emissionOutcome none ws = .next (s.emitted ws) := by
  simp only [State.emissionOutcome, hm]

theorem emissionOutcome_compat_fits (hm : s.cfg.mode = .compat) (hfit : s.cursor.toNat + ws.length ≤ memWords) :
    s.emissionOutcome error? ws = .next (s.emitted ws) := by
  simp only [State.emissionOutcome, hm, if_pos hfit]

theorem emissionOutcome_compat_over (hm : s.cfg.mode = .compat) (hover : memWords < s.cursor.toNat + ws.length) :
    s.emissionOutcome error? ws = .fault .overrun := by
  simp only [State.emissionOutcome, hm, if_neg (Nat.not_le.mpr hover)]

/-- The operand check and then the space check in front of a body that emits `ws` where they fit. -/
theorem checked_emission {n : Nat} {operandError? : Option EncodingError} {k : State → Out} {o : Out} (hl : s.Live)
    (hrun : o = strictCheck operandError? s fun s' => need n s' k) (hlen : ws.length = n)
    (hk : s.cursor.toNat + n ≤ memWords → k s = .next (s.emitted ws)) :
    o = s.emissionOutcome (operandError?.or (spaceError? n s.cursor)) ws := by
  subst hlen
  have hguarded := guarded_emission hl operandError? ws k hk
  rw [whenLive_of_live hl] at hguarded
  rw [hrun, hguarded]
  unfold State.emissionOutcome spaceError?
  cases s.cfg.mode <;> cases operandError? <;> by_cases hfit : s.cursor.toNat + ws.length ≤ memWords <;> simp [hfit]

end Outcome

/-! ### The checks of the error table (R251) -/

theorem addressError?_or (address : Addr) (next? : Option EncodingError) :
    (addressError? address).or next? = if address.toNat < 65536 then next? else some ⟨.outOfRange, address.toNat⟩ := by
  unfold addressError?
  by_cases h : address.toNat < 65536
  · rw [if_pos h, if_neg (by omega), Option.none_or]
  · rw [if_neg h, if_pos (by omega), Option.some_or]

theorem gotoError?_or (target : Addr) (next? : Option EncodingError) :
    (gotoError? target).or next? = if target.toNat < 4194304 then next? else some ⟨.outOfRange, target.toNat⟩ := by
  unfold gotoError? gotoHigh
  by_cases h : target.toNat < 4194304
  · rw [if_pos h, if_neg (by omega), Option.none_or]
  · rw [if_neg h, if_pos (by omega), Option.some_or]

theorem aluError?_or (op : Code) (next? : Option EncodingError) :
    (aluError? op).or next? = if op.toNat ∈ [5, 7, 14, 15] then some ⟨.reservedOpcode, op.toNat⟩ else next? := by
  rw [aluError?_eq]
  split <;> rfl

theorem conditionDefined_eq (condition : Code) : Code.conditionDefined condition = decide (condition.toNat ∈ [4, 5, 14]) := by
  decide +revert

theorem branchError?_or (cursor : Cursor) (condition : Code) (target : Addr) (next? : Option EncodingError) :
    (branchError? cursor condition target).or next? =
      if condition.toNat ∉ [4, 5, 14] then some ⟨.reservedOpcode, condition.toNat⟩
      else if 63 < branchMag cursor target then some ⟨.outOfRange, branchDelta cursor target⟩ else next? := by
  rw [branchError?, conditionDefined_eq]
  by_cases hdefined : condition.toNat ∈ [4, 5, 14]
  · rw [if_neg (by simp [hdefined]), if_neg (not_not_intro hdefined)]
    split <;> rfl
  · rw [if_pos (by simp [hdefined]), if_pos hdefined, Option.some_or]

/-- The branch word over any prior content (R190). -/
theorem compose_branch (prior : Word) (condition : Code) (pcIndex : Reg) (cursor : Cursor) (target : Addr) :
    compose prior [(.opA, pcIndex.toNat), (.opimm, branchMag cursor target), (.op1, branchBack cursor target),
      (.op0, condition.toNat)] =
      (Form.branch condition (decide (target.toNat < cursor.toNat + 1)) (BitVec.ofNat 6 (branchMag cursor target))).word
        pcIndex := by
  have hback : branchBack cursor target =
      (if decide (target.toNat < cursor.toNat + 1) = true then 1#3 else 0#3).toNat := by
    unfold branchBack branchPc
    by_cases h : target.toNat < cursor.toNat + 1 <;> simp [h]
  rw [hback, compose_immediate]
  rfl

/-! ### The commands -/

theorem emittedWords_length (c : Command) (cfg : Config) (pos : Cursor) :
    (c.emittedWords cfg pos).length = c.wordCount := by
  cases c with
  | emitBranch condition target => exact Laws.EncodeLength.encodeBranch_length cfg.pcIndex pos condition target
  | _ => rfl

/-- A command that is an instruction word and a literal word. -/
theorem emit_two_done {s : State} {l : List (WordField × Nat)} {w : Word} (hfit : s.cursor.toNat + 2 ≤ memWords)
    (hw : ∀ prior, compose prior l = w) (v : Word) :
    (putInsn l s fun s => putWord v s done) = .next (s.emitted [w, v]) :=
  (emit_two hfit hw v done).trans (put_put_done hfit w v)

/-- The four words of `storeImmediate`, through the scratch register (R143). -/
theorem putSet_putStore_done {s : State} (hfit : s.cursor.toNat + 4 ≤ memWords) (address : Addr) (value : Word) :
    (putSet s.cfg.scratchReg value s fun s => putStore address s.cfg.scratchReg s done) =
      .next (s.emitted [assembleRegister 9#4 s.cfg.scratchReg 4#3 1#3 s.cfg.scratchReg, value,
        assembleRegister 13#4 s.cfg.scratchReg 4#3 3#3 s.cfg.scratchReg, literalOf address]) := by
  have h1 := put_cursor_toNat (s := s) (by omega) (assembleRegister 9#4 s.cfg.scratchReg 4#3 1#3 s.cfg.scratchReg)
  have h2 := put_cursor_toNat (s := s.put (assembleRegister 9#4 s.cfg.scratchReg 4#3 1#3 s.cfg.scratchReg)) (by omega) value
  rw [putSet, emit_two (by omega) fun prior => compose_set prior s.cfg.scratchReg, State.put_cfg, State.put_cfg, putStore,
    emit_two (by omega) fun prior => compose_store prior s.cfg.scratchReg, put_four_done hfit]

/-- The one statement of what an emission command does in a live block. -/
theorem runCommand_emission {c : Command} {s : State} (hl : s.Live) (he : c.isEmission = true) :
    runCommand c s = s.emissionOutcome (c.strictError? s.cursor) (c.emittedWords s.cfg s.cursor) := by
  have hlive := whenLive_of_live hl
  cases c with
  | emitSet reg value =>
    exact checked_emission (operandError? := none) (k := fun s => putSet reg value s done) hl
      ((hlive fun s => need 2 s fun s => putSet reg value s done).trans (strictCheck_none s fun s => need 2 s _).symm) rfl
      fun hfit => emit_two_done hfit (fun prior => compose_set prior reg) value
  | emitLoad reg address =>
    rw [Command.strictError?, ← addressError?_or, Command.emittedWords, encodeAt, ← literalOf_eq]
    change execLoad reg address s = _
    exact checked_emission (k := fun s => putLoad reg address s done) hl (hlive _) rfl
      fun hfit => emit_two_done hfit (fun prior => compose_load prior reg) _
  | emitStore address reg =>
    rw [Command.strictError?, ← addressError?_or, Command.emittedWords, encodeAt, ← literalOf_eq]
    change execStore address reg s = _
    exact checked_emission (k := fun s => putStore address reg s done) hl (hlive _) rfl
      fun hfit => emit_two_done hfit (fun prior => compose_store prior reg) _
  | storeImmediate address value =>
    rw [Command.strictError?, ← addressError?_or, Command.emittedWords, encodeAt, encodeAt, ← literalOf_eq,
      List.cons_append, List.cons_append, List.nil_append]
    change Machine.storeImmediate address value s = _
    exact checked_emission (n := 4)
      (k := fun s => putSet s.cfg.scratchReg value s fun s => putStore address s.cfg.scratchReg s done) hl
      (hlive _) rfl fun hfit => putSet_putStore_done hfit address value
  | emitAlu op dst src =>
    rw [Command.strictError?, ← aluError?_or, runCommand_emitAlu]
    exact checked_emission hl (hlive _) rfl fun hfit => emit_one hfit fun prior => compose_alu prior op dst src
  | emitBranch condition target =>
    have herror : (branchError? s.cursor condition target).or (spaceError? 1 s.cursor) =
      Command.strictError? s.cursor (.emitBranch condition target) := branchError?_or s.cursor condition target _
    rw [← herror, runCommand_emitBranch, Command.emittedWords, encodeBranch_eq_word]
    exact checked_emission hl (hlive _) rfl
      fun hfit => emit_one hfit fun prior => compose_branch prior condition s.cfg.pcIndex s.cursor target
  | emitGoto target =>
    rw [Command.strictError?, ← gotoError?_or, Command.emittedWords, encodeAt_goto_eq_word]
    change execGoto target s = _
    exact checked_emission (k := fun s => putInsn [(.opA, s.cfg.pcIndex.toNat), (.opimm, gotoHigh target), (.op1, 2),
        (.op0, 15)] s fun s => putWord (gotoLow target) s done) hl (hlive _) rfl
      fun hfit => emit_two_done hfit (fun prior => compose_goto prior s.cfg.pcIndex (gotoHigh target)) (gotoLow target)
  | _ => exact absurd he Bool.false_ne_true

/-! ### Consequences for one emission -/

theorem spaceError?_eq_none {n : Nat} {cursor : Cursor} : spaceError? n cursor = none ↔ cursor.toNat + n ≤ memWords := by
  simp [spaceError?]

theorem spaceError?_of_over {n : Nat} {cursor : Cursor} (h : memWords < cursor.toNat + n) :
    spaceError? n cursor = some ⟨.bufferOverrun, cursor.toNat⟩ :=
  if_neg (Nat.not_le.mpr h)

/-- The space check is the last one: a command that raises no error fits (R255). -/
theorem fits_of_strictError?_none {c : Command} {cursor : Cursor} (he : c.isEmission = true)
    (h : c.strictError? cursor = none) : cursor.toNat + c.wordCount ≤ memWords := by
  apply spaceError?_eq_none.mp
  cases c with
  | emitSet reg value => exact h
  | emitLoad reg address => exact (ite_eq_iff.mp h).elim And.right fun h => nomatch h.2
  | emitStore address reg => exact (ite_eq_iff.mp h).elim And.right fun h => nomatch h.2
  | storeImmediate address value => exact (ite_eq_iff.mp h).elim And.right fun h => nomatch h.2
  | emitGoto target => exact (ite_eq_iff.mp h).elim And.right fun h => nomatch h.2
  | emitAlu op dst src => exact (ite_eq_iff.mp h).elim (fun h => nomatch h.2) And.right
  | emitBranch condition target =>
    have hrange := (ite_eq_iff.mp h).elim (fun h => nomatch h.2) And.right
    exact (ite_eq_iff.mp hrange).elim (fun h => nomatch h.2) And.right
  | _ => exact absurd he Bool.false_ne_true

/-- An emission completes exactly where its words fit and, in STRICT, the table names no error. -/
def Command.Admitted (c : Command) (s : State) : Prop :=
  s.cursor.toNat + c.wordCount ≤ memWords ∧ (s.cfg.mode = .strict → c.strictError? s.cursor = none)

section Emission
variable {c : Command} {s : State} (hl : s.Live) (he : c.isEmission = true)
include hl he

theorem runCommand_admitted (h : c.Admitted s) :
    runCommand c s = .next (s.emitted (c.emittedWords s.cfg s.cursor)) := by
  obtain ⟨hfit, hchecks⟩ := h
  rw [runCommand_emission hl he]
  cases hm : s.cfg.mode with
  | strict => rw [hchecks hm, emissionOutcome_strict_ok hm]
  | compat => exact emissionOutcome_compat_fits hm (by rwa [emittedWords_length])

theorem runCommand_strict_error (hm : s.cfg.mode = .strict) {e : EncodingError} (h : c.strictError? s.cursor = some e) :
    runCommand c s = .next (s.rejected e) := by
  rw [runCommand_emission hl he, h, emissionOutcome_strict_error hm]

theorem runCommand_compat_over (hm : s.cfg.mode = .compat) (h : memWords < s.cursor.toNat + c.wordCount) :
    runCommand c s = .fault .overrun := by
  rw [runCommand_emission hl he, emissionOutcome_compat_over hm (by rwa [emittedWords_length])]

omit hl in
/-- The three cases, which exclude each other. -/
theorem admitted_or_error_or_over : c.Admitted s ∨ (s.cfg.mode = .strict ∧ ∃ e, c.strictError? s.cursor = some e) ∨
    (s.cfg.mode = .compat ∧ memWords < s.cursor.toNat + c.wordCount) := by
  cases hm : s.cfg.mode with
  | strict =>
    cases herror : c.strictError? s.cursor with
    | none => exact .inl ⟨fits_of_strictError?_none he herror, fun _ => herror⟩
    | some e => exact .inr (.inl ⟨rfl, e, rfl⟩)
  | compat =>
    rcases Nat.lt_or_ge memWords (s.cursor.toNat + c.wordCount) with hover | hfit
    · exact .inr (.inr ⟨rfl, hover⟩)
    · exact .inl ⟨hfit, fun hstrict => by cases hm.symm.trans hstrict⟩

/-- Where the operands raise no error, only the space check is left. -/
theorem emitsOrOverruns_of_checked (h : s.cfg.mode = .compat ∨ c.strictError? s.cursor = spaceError? c.wordCount s.cursor) :
    EmitsOrOverruns (runCommand c s) (c.emittedWords s.cfg s.cursor) s := by
  unfold EmitsOrOverruns
  rw [emittedWords_length]
  refine ⟨fun hfit => runCommand_admitted hl he ⟨hfit, fun hm => ?_⟩, fun hover hm => ?_,
    fun hover hm => runCommand_compat_over hl he hm hover⟩
  all_goals have hcheck := h.resolve_left (by simp [hm])
  · rw [hcheck, spaceError?_eq_none.mpr hfit]
  · rw [runCommand_strict_error hl he hm (hcheck.trans (spaceError?_of_over hover))]

end Emission

/-- Settles O21: the four outcomes of `runCommand_emission`, by the mode and the table's answer. -/
theorem emissionCommandsRefineTheEncoder : Obligations.EmissionCommandsRefineTheEncoder := fun c s hl he =>
  ⟨fun hm _ herror => runCommand_strict_error hl he hm herror,
    fun _ hnone => runCommand_admitted hl he ⟨fits_of_strictError?_none he hnone, fun _ => hnone⟩,
    fun hm hfit => runCommand_admitted hl he ⟨hfit, fun hstrict => by cases hm.symm.trans hstrict⟩,
    fun hm hover => runCommand_compat_over hl he hm hover,
    emittedWords_length c s.cfg s.cursor⟩

/-! ### The words of each command as the spec's tables give them -/

theorem set_word (reg : Reg) :
    assembleRegister 9#4 reg 4#3 1#3 reg = 0x9108#16 ||| (reg.setWidth 16 <<< 9) ||| reg.setWidth 16 := by
  decide +revert

theorem load_word (reg : Reg) :
    assembleRegister 9#4 reg 4#3 2#3 reg = 0x9110#16 ||| (reg.setWidth 16 <<< 9) ||| reg.setWidth 16 := by
  decide +revert

theorem store_word (reg : Reg) :
    assembleRegister 13#4 reg 4#3 3#3 reg = 0xD118#16 ||| (reg.setWidth 16 <<< 9) ||| reg.setWidth 16 := by
  decide +revert

theorem literal_word (address : Addr) : address.setWidth 16 = BitVec.ofNat 16 (address.toNat % 65536) :=
  (literalOf_eq address).symm

/-- The ALU word (R160). -/
theorem alu_word (op : Code) (dst src : Reg) :
    assembleRegister op dst 4#3 0#3 src =
      (op.setWidth 16 <<< 12) ||| (dst.setWidth 16 <<< 9) ||| 0x0100#16 ||| src.setWidth 16 := by
  simp [assembleRegister]

/-- The branch word (R190): the condition, `PC_INDEX`, the direction flag in the whole field `op1`, the magnitude modulo 64. -/
theorem branch_word (condition : Code) (pcIndex : Reg) (p : Prop) [Decidable p] (mag : Nat) :
    (Form.branch condition (decide p) (BitVec.ofNat 6 mag)).word pcIndex =
      (condition.setWidth 16 <<< 12) ||| (pcIndex.setWidth 16 <<< 9) ||| (BitVec.ofNat 16 (if p then 1 else 0) <<< 6) |||
        BitVec.ofNat 16 (mag % 64) := by
  have hmag : (BitVec.ofNat 6 mag).setWidth 16 = BitVec.ofNat 16 (mag % 64) := BitVec.eq_of_toNat_eq (by simp)
  rw [Form.word, assembleImmediate, hmag]
  by_cases hp : p <;> simp [hp]

/-- The instruction word of the far jump (R210). -/
theorem goto_word (pcIndex : Reg) (high : Nat) :
    (Form.goto (BitVec.ofNat 6 high)).word pcIndex =
      0xF000#16 ||| (pcIndex.setWidth 16 <<< 9) ||| 0x0080#16 ||| BitVec.ofNat 16 (high % 64) := by
  have hhigh : (BitVec.ofNat 6 high).setWidth 16 = BitVec.ofNat 16 (high % 64) := BitVec.eq_of_toNat_eq (by simp)
  rw [Form.word, assembleImmediate, hhigh]
  simp

/-- Settles O11: `emitSet` has no operand check, so only the space check is left. -/
theorem setEmitsLoadImmediateAndLiteral : Obligations.SetEmitsLoadImmediateAndLiteral := by
  intro reg value s hl
  rw [← set_word]
  exact emitsOrOverruns_of_checked (c := .emitSet reg value) hl rfl (.inr rfl)

/-- Settles O12: the address check of the table, then the space check, around the encoder's two words. -/
theorem loadEmitsAbsoluteLoadAndAddress : Obligations.LoadEmitsAbsoluteLoadAndAddress := by
  intro reg address s hl
  rw [← load_word, ← literal_word]
  exact ⟨fun hm hlarge => runCommand_strict_error (c := .emitLoad reg address) hl rfl hm (if_neg (Nat.not_lt.mpr hlarge)),
    fun h => emitsOrOverruns_of_checked (c := .emitLoad reg address) hl rfl (h.imp_right fun hsmall => if_pos hsmall)⟩

/-- Settles O13: as `loadEmitsAbsoluteLoadAndAddress`, for the STORE form. -/
theorem storeEmitsAbsoluteStoreAndAddress : Obligations.StoreEmitsAbsoluteStoreAndAddress := by
  intro reg address s hl
  rw [← store_word, ← literal_word]
  exact ⟨fun hm hlarge => runCommand_strict_error (c := .emitStore address reg) hl rfl hm (if_neg (Nat.not_lt.mpr hlarge)),
    fun h => emitsOrOverruns_of_checked (c := .emitStore address reg) hl rfl (h.imp_right fun hsmall => if_pos hsmall)⟩

/-- Settles O14: one address check and one space check for the words of both halves. -/
theorem storeImmediateEmitsFourWordsOrNone : Obligations.StoreImmediateEmitsFourWordsOrNone := by
  intro address value s hl
  rw [← set_word, ← store_word, ← literal_word]
  exact ⟨fun hm hlarge =>
      runCommand_strict_error (c := .storeImmediate address value) hl rfl hm (if_neg (Nat.not_lt.mpr hlarge)),
    fun h => emitsOrOverruns_of_checked (c := .storeImmediate address value) hl rfl (h.imp_right fun hsmall => if_pos hsmall)⟩

/-- Settles O15: the code check and the space check around the ALU word; the closed instances are evaluated. -/
theorem aluCommandEmitsOneRegisterWord : Obligations.AluCommandEmitsOneRegisterWord := by
  intro op dst src s hl
  refine ⟨fun hm hreserved => runCommand_strict_error (c := .emitAlu op dst src) hl rfl hm (if_pos hreserved),
    fun h => ?_, fun h => by rw [h]; rfl, fun h => by rw [h]; rfl, fun h => by rw [h]; rfl, fun h => by rw [h]; rfl,
    fun hop hdst hsrc => by rw [hop, hdst, hsrc]; rfl⟩
  rw [← alu_word]
  exact emitsOrOverruns_of_checked (c := .emitAlu op dst src) hl rfl (h.imp_right fun hrow => if_neg hrow)

/-- An ALU word is its base word with the two registers put in. -/
theorem alu_word_eq_base_or (op : Code) (dst src : Reg) :
    assembleRegister op dst 4#3 0#3 src =
      assembleRegister op 0#3 4#3 0#3 0#3 ||| ((dst.setWidth 16 <<< 9) ||| src.setWidth 16) := by
  rw [alu_word, alu_word]
  simp only [BitVec.setWidth_zero, BitVec.zero_shiftLeft, BitVec.or_zero]
  ac_rfl

/-- One of the twelve operations: its code raises no error, so the space check alone is left. -/
theorem aluRow_emits {op : Code} {base : Word} (hbase : assembleRegister op 0#3 4#3 0#3 0#3 = base)
    (hop : op.toNat ∉ [5, 7, 14, 15]) (dst src : Reg) {s : State} (hl : s.Live) :
    EmitsOrOverruns (runCommand (.emitAlu op dst src) s) [base ||| ((dst.setWidth 16 <<< 9) ||| src.setWidth 16)] s := by
  rw [← hbase, ← alu_word_eq_base_or]
  exact emitsOrOverruns_of_checked (c := .emitAlu op dst src) hl rfl (.inr (if_neg hop))

theorem le_or_left (x y : Word) : x ≤ x ||| y := by
  rw [BitVec.le_def, BitVec.toNat_or]
  exact Nat.left_le_or

/-- Register bits `f` lie outside the fixed bits of a base word `c` and within 0x0E07, so they neither carry nor borrow. -/
theorem aluBase_or_registers {c f : Word} (hc : c &&& 0xF1F8#16 = c) (hout : f &&& 0xF1F8#16 = 0#16)
    (hin : f ||| 0x0E07#16 = 0x0E07#16) :
    (c ||| f) &&& 0xF1F8#16 = c ∧ c ≤ c ||| f ∧ c ||| f ≤ c ||| 0x0E07#16 ∧ c ||| f = c + f := by
  have hcf : c &&& f = 0#16 := by rw [← hc, BitVec.and_assoc, BitVec.and_comm _ f, hout, BitVec.and_zero]
  refine ⟨?_, le_or_left c f, ?_, (BitVec.add_eq_or_of_and_eq_zero c f hcf).symm⟩
  · rw [BitVec.and_comm, BitVec.and_or_distrib_left, BitVec.and_comm _ c, hc, BitVec.and_comm _ f, hout, BitVec.or_zero]
  · rw [← hin, ← BitVec.or_assoc]
    exact le_or_left _ _

/-- The bits of two registers in `opA` and `opB`. -/
theorem registerBits (d r : Reg) : ((d.setWidth 16 <<< 9) ||| r.setWidth 16 : Word) &&& 0xF1F8#16 = 0#16 ∧
    ((d.setWidth 16 <<< 9) ||| r.setWidth 16 : Word) ||| 0x0E07#16 = 0x0E07#16 := by
  decide +revert

/-- Settles O16: each operation is `aluRow_emits` at its base word; the registers lie outside a base word's fixed bits. -/
theorem twelveAluOperationsEmitTheirWords : Obligations.TwelveAluOperationsEmitTheirWords := by
  intro d r s hl
  refine ⟨⟨aluRow_emits (op := Code.ADD) rfl (by decide) d r hl, aluRow_emits (op := Code.ADC) rfl (by decide) d r hl,
    aluRow_emits (op := Code.SUB) rfl (by decide) d r hl, aluRow_emits (op := Code.SBC) rfl (by decide) d r hl,
    aluRow_emits (op := Code.CMP) rfl (by decide) d r hl, aluRow_emits (op := Code.NEG) rfl (by decide) d r hl,
    aluRow_emits (op := Code.XOR) rfl (by decide) d r hl, aluRow_emits (op := Code.LOAD) rfl (by decide) d r hl,
    aluRow_emits (op := Code.OR) rfl (by decide) d r hl, aluRow_emits (op := Code.AND) rfl (by decide) d r hl,
    aluRow_emits (op := Code.TEST) rfl (by decide) d r hl, aluRow_emits (op := Code.STORE) rfl (by decide) d r hl⟩,
    fun c hc => ?_⟩
  have hfixed : ∀ c ∈ [0x0100#16, 0x1100#16, 0x2100#16, 0x3100#16, 0x4100#16, 0x6100#16, 0x8100#16, 0x9100#16, 0xA100#16,
      0xB100#16, 0xC100#16, 0xD100#16], c &&& 0xF1F8#16 = c := by simp
  obtain ⟨hout, hin⟩ := registerBits d r
  obtain ⟨hmask, hlow, hhigh, hsum⟩ := aluBase_or_registers (hfixed c hc) hout hin
  exact ⟨hmask, hlow, hhigh, fun hd hr => by rw [hsum, hd, hr]; rfl, fun hd hr => by rw [hsum, hd, hr]; rfl⟩

/-! ### Branches (43_branch.md) -/

/-- Within the checks a branch is its word, or the overrun. -/
theorem emitBranch_emits {condition : Code} {target : Addr} {s : State} (hl : s.Live)
    (h : s.cfg.mode = .compat ∨ (condition.toNat ∈ [4, 5, 14] ∧ branchMag s.cursor target ≤ 63)) :
    EmitsOrOverruns (runCommand (.emitBranch condition target) s)
      [(Form.branch condition (decide (target.toNat < s.cursor.toNat + 1)) (BitVec.ofNat 6 (branchMag s.cursor target))).word
        s.cfg.pcIndex] s := by
  rw [← encodeBranch_eq_word]
  exact emitsOrOverruns_of_checked (c := .emitBranch condition target) hl rfl
    (h.imp_right fun hin => (if_neg (not_not_intro hin.1)).trans (if_neg (Nat.not_lt.mpr hin.2)))

/-- A branch out of range is the range error in STRICT, when its condition is defined. -/
theorem emitBranch_outOfRange {condition : Code} {target : Addr} {s : State} (hl : s.Live) (hm : s.cfg.mode = .strict)
    (hcondition : condition.toNat ∈ [4, 5, 14]) (hfar : 63 < branchMag s.cursor target) :
    runCommand (.emitBranch condition target) s =
      .next (s.rejected ⟨.outOfRange, (target.toNat : Int) - ((s.cursor.toNat : Int) + 1)⟩) :=
  runCommand_strict_error (c := .emitBranch condition target) hl rfl hm
    ((if_neg (not_not_intro hcondition)).trans (if_pos hfar))

/-- Settles O17: the two operand checks in their order, then `emitBranch_emits`. -/
theorem branchCommandEmitsDirectionAndMagnitude : Obligations.BranchCommandEmitsDirectionAndMagnitude := by
  refine fun condition target s hl => ⟨fun hm hundefined => ?_, fun hm hdefined hfar => ?_, fun h => ?_⟩
  · exact runCommand_strict_error (c := .emitBranch condition target) hl rfl hm (if_pos hundefined)
  · exact emitBranch_outOfRange hl hm hdefined hfar
  · have hemits := emitBranch_emits hl h
    rwa [branch_word] at hemits

/-- One of the three defined conditions: the range check is the only one on the operands. -/
theorem branchRow_emits {condition : Code} (hdefined : condition.toNat ∈ [4, 5, 14]) {target : Addr} {s : State} (hl : s.Live)
    (h : s.cfg.mode = .compat ∨ branchMag s.cursor target ≤ 63) :
    EmitsOrOverruns (runCommand (.emitBranch condition target) s)
      [(condition.setWidth 16 <<< 12) ||| (s.cfg.pcIndex.setWidth 16 <<< 9) |||
        ((BitVec.ofNat 16 (if target.toNat < s.cursor.toNat + 1 then 1 else 0) <<< 6) |||
          BitVec.ofNat 16 (branchMag s.cursor target % 64))] s := by
  have hemits := emitBranch_emits hl (h.imp_right fun hin => ⟨hdefined, hin⟩)
  rwa [branch_word, BitVec.or_assoc] at hemits

/-- Settles O18: the three conditions are calls of `emitBranch` with a defined condition. -/
theorem threeConditionsEmitTheirBranchWords : Obligations.ThreeConditionsEmitTheirBranchWords := by
  have hne : Code.NOT_EQUAL.toNat ∈ [4, 5, 14] := by decide
  have heq : Code.EQUAL.toNat ∈ [4, 5, 14] := by decide
  have halways : Code.ALWAYS.toNat ∈ [4, 5, 14] := by decide
  intro target s hl
  refine ⟨fun hm hfar => ?_, fun h => ?_, fun hpc => by rw [hpc]; exact ⟨rfl, rfl, rfl⟩⟩
  · exact ⟨emitBranch_outOfRange hl hm hne hfar, emitBranch_outOfRange hl hm heq hfar,
      emitBranch_outOfRange hl hm halways hfar⟩
  · exact ⟨branchRow_emits hne hl h, branchRow_emits heq hl h, branchRow_emits halways hl h⟩

/-- The magnitude field holds the magnitude modulo 64, and six bits of it are those of the magnitude (R191). -/
theorem toNat_magnitude (mag : Nat) : (BitVec.ofNat 6 mag).toNat = mag % 64 := BitVec.toNat_ofNat mag 6

/-- Out of range the truncated magnitude misses the target by as many times 64 as were dropped. -/
theorem branchTarget_truncated {pos : Cursor} {target : Addr} (hfar : 63 < branchMag pos target) :
    ∃ k : Int, k ≠ 0 ∧
      branchTarget pos (decide (target.toNat < pos.toNat + 1)) (BitVec.ofNat 6 (branchMag pos target)) - target.toNat =
        64 * k := by
  have hsplit := Nat.mod_add_div (branchMag pos target) 64
  have hdropped : 0 < branchMag pos target / 64 := by omega
  have hmag := branchMag_eq pos target
  unfold branchTarget
  rw [toNat_magnitude]
  split
  · next hback =>
    have hlt := of_decide_eq_true hback
    exact ⟨branchMag pos target / 64, by omega, by omega⟩
  · next hforward =>
    have hge := of_decide_eq_false (Bool.eq_false_iff.mpr hforward)
    exact ⟨-(branchMag pos target / 64 : Nat), by omega, by omega⟩

theorem branch_word_forward_zero (condition : Code) :
    (Form.branch condition false 0#6).word 7#3 = (condition.setWidth 16 <<< 12) ||| 0x0E00#16 := by
  decide +revert

theorem branch_word_backward_zero (condition : Code) :
    (Form.branch condition true 0#6).word 7#3 = (condition.setWidth 16 <<< 12) ||| 0x0E40#16 := by
  decide +revert

section BranchFields
variable (condition : Code) (back : Bool) (mag : BitVec 6) (pcIndex : Reg)

theorem getField_op0_branch : getField ((Form.branch condition back mag).word pcIndex) .op0 = condition.toNat :=
  getField_op0_assembleImmediate _ _ _ _

theorem getField_opA_branch : getField ((Form.branch condition back mag).word pcIndex) .opA = pcIndex.toNat :=
  getField_opA_assembleImmediate _ _ _ _

theorem getField_op1_branch : getField ((Form.branch condition back mag).word pcIndex) .op1 = if back then 1 else 0 := by
  rw [Form.word, getField_op1_assembleImmediate]
  cases back <;> rfl

theorem getField_opimm_branch : getField ((Form.branch condition back mag).word pcIndex) .opimm = mag.toNat :=
  getField_opimm_assembleImmediate _ _ _ _

end BranchFields

/-- The direction flag and the six bits of the magnitude of a branch from `pos` to `target`. -/
theorem branch_fields_of_delta {condition : Code} {pos : Cursor} {target : Addr} (back : Bool) (mag : Nat)
    (hback : back = true ↔ target.toNat < pos.toNat + 1)
    (hmag : ((target.toNat : Int) - ((pos.toNat : Int) + 1)).natAbs % 64 = mag % 64) :
    Form.branch condition (decide (target.toNat < pos.toNat + 1)) (BitVec.ofNat 6 (branchMag pos target)) =
      .branch condition back (BitVec.ofNat 6 mag) := by
  have hb : decide (target.toNat < pos.toNat + 1) = back := by simp only [← hback, Bool.decide_eq_true]
  have hm : BitVec.ofNat 6 (branchMag pos target) = BitVec.ofNat 6 mag :=
    BitVec.eq_of_toNat_eq (by rw [toNat_magnitude, toNat_magnitude, branchMag_eq, hmag])
  rw [hb, hm]

/-- Settles O19: the word is that of the direction and the truncated magnitude; each clause reads its fields. -/
theorem branchMagnitudeIsExactOrTruncated : Obligations.BranchMagnitudeIsExactOrTruncated := by
  intro condition target s hl hcursor h
  have himm := (getField_opimm_branch condition (decide (target.toNat < s.cursor.toNat + 1))
    (BitVec.ofNat 6 (branchMag s.cursor target)) s.cfg.pcIndex).trans (toNat_magnitude _)
  have hop1 := getField_op1_branch condition (decide (target.toNat < s.cursor.toNat + 1))
    (BitVec.ofNat 6 (branchMag s.cursor target)) s.cfg.pcIndex
  have hbits : BitVec.ofNat 6 (branchMag s.cursor target % 64) = BitVec.ofNat 6 (branchMag s.cursor target) :=
    BitVec.eq_of_toNat_eq (by simp)
  refine ⟨_, (emitBranch_emits hl h).1 hcursor, getField_op0_branch _ _ _ _, getField_opA_branch _ _ _ _, hop1, himm,
    fun hnear => ⟨?exact, ?denotes⟩, fun hfar => ?misses, fun hdelta hpc => ?forward, fun hdelta hpc => ?backward,
    fun hnear hpc hword => ?notBackZero, fun hdelta => ?one, fun htarget => ⟨?placeholderBack, ?placeholderMag⟩⟩
  case exact => exact himm.trans (Nat.mod_eq_of_lt (Nat.lt_succ_of_le hnear))
  case denotes =>
    rw [himm, hbits]
    exact branchTarget_of_branchMag_le hnear
  case misses =>
    rw [himm, hbits]
    exact branchTarget_truncated hfar
  case forward =>
    rw [hpc, branch_fields_of_delta false 0 (by simp; omega) (by omega)]
    exact branch_word_forward_zero condition
  case backward =>
    rw [hpc, branch_fields_of_delta true 0 (by simp; omega) (by omega)]
    exact branch_word_backward_zero condition
  case notBackZero =>
    rw [hpc, ← branch_word_backward_zero] at hword
    have hform := congrArg (formOf 7#3) hword
    rw [formOf_word, formOf_word, Form.branch.injEq] at hform
    obtain ⟨-, hback, hmag⟩ := hform
    have hlt := of_decide_eq_true hback
    have hzero := congrArg BitVec.toNat hmag
    rw [toNat_magnitude, branchMag_eq, BitVec.toNat_zero] at hzero
    omega
  case one => rw [himm, branchMag_eq]; omega
  case placeholderBack => rw [hop1, htarget]; simp
  case placeholderMag => rw [himm, branchMag_eq, htarget]; simp; omega

/-! ### The far jump (44_goto.md) -/

/-- Settles O20: the target check around the encoder's two words, which `gotoTarget_of_fits` puts together again. -/
theorem gotoEmitsHighPartAndLowWord : Obligations.GotoEmitsHighPartAndLowWord := by
  intro target s hl
  refine ⟨fun hm hlarge => ?error, fun h => ?words, fun hpc => ?seven, fun hsmall => ?target⟩
  case error =>
    exact runCommand_strict_error (c := .emitGoto target) hl rfl hm (if_neg (Nat.not_lt.mpr hlarge))
  case words =>
    rw [← goto_word, ← encodeAt_goto_eq_word s.cfg.pcIndex s.cursor]
    exact emitsOrOverruns_of_checked (c := .emitGoto target) hl rfl (h.imp_right fun hsmall => if_pos hsmall)
  case seven => rw [hpc]; rfl
  case target =>
    have himm : getField (0xF000#16 ||| (s.cfg.pcIndex.setWidth 16 <<< 9) ||| 0x0080#16 |||
        BitVec.ofNat 16 (target.toNat / 65536 % 64)) .opimm = (BitVec.ofNat 6 (target.toNat / 65536)).toNat := by
      rw [← goto_word]
      exact getField_opimm_assembleImmediate _ _ _ _
    rw [himm, BitVec.ofNat_toNat, BitVec.setWidth_eq]
    exact gotoTarget_of_fits hsmall

end Sys2Proof.Machine

/-!
What a command leaves or meets: the fields an emission and an error change, the case analysis over the commands, and the frames
that follow from it.
-/
namespace Sys2Proof.Machine

/-! ### The fields that an emission and an error change -/

section Fields
variable (s : State) (ws : List Word) (e : EncodingError)

@[simp] theorem State.emitted_mem : (s.emitted ws).mem = writeWords s.mem s.cursor.toNat ws := rfl
@[simp] theorem State.rejected_faultCode :
    (s.rejected e).faultCode = if s.faultCode = 0#2 then e.kind.code else s.faultCode := rfl
@[simp] theorem State.rejected_faultPos :
    (s.rejected e).faultPos = if s.faultCode = 0#2 then s.cursor else s.faultPos := rfl

end Fields

theorem State.emitted_cursor_toNat {s : State} {ws : List Word} (h : s.cursor.toNat + ws.length ≤ memWords) :
    (s.emitted ws).cursor.toNat = s.cursor.toNat + ws.length :=
  cursor_add_toNat h

theorem ErrorKind.code_ne_zero (kind : ErrorKind) : kind.code ≠ 0#2 := by cases kind <;> decide

/-! ### A faulted block (R258) -/

theorem runCommand_of_faulted {s : State} {f : Fault} (h : s.faulted = some f) {c : Command} (hc : c ≠ .reset) :
    runCommand c s = .fault f := by
  cases c with
  | reset => exact absurd rfl hc
  | emitAlu op dst src => rw [runCommand_emitAlu]; exact whenLive_of_faulted h _
  | emitBranch condition target => rw [runCommand_emitBranch]; exact whenLive_of_faulted h _
  | _ =>
    simp only [runCommand, exec, execSet, execLoad, execStore, execGoto, storeImmediate, getCursor, patchBegin, patchSeek,
      patchEnd, hostPoke, hostPeek, hostSerialize, whenLive_of_faulted h]

/-- Only `reset()` gives a faulted block a next state. -/
theorem live_of_runCommand_next {c : Command} {s t : State} (h : runCommand c s = .next t) (hc : c ≠ .reset) : s.Live := by
  cases hf : s.faulted with
  | none => exact hf
  | some f => rw [runCommand_of_faulted hf hc] at h; cases h

theorem isEmission_ne_reset {c : Command} (he : c.isEmission = true) : c ≠ .reset := by
  rintro rfl
  cases he

/-! ### The commands that do not emit -/

section Commands
variable {s : State} (hl : s.Live)
include hl

theorem runCommand_patchBegin (ha : s.active = false) : runCommand .patchBegin s = .next (s.openPatch.answer .ok) := by
  simp [runCommand, patchBegin, hl, ha, done]

theorem runCommand_patchBegin_nested (ha : s.active = true) :
    runCommand .patchBegin s = .fault (.protocolFault .nested) := by
  simp [runCommand, patchBegin, hl, ha]

theorem runCommand_patchSeek (ha : s.active = true) (pos : CellAddr) :
    runCommand (.patchSeek pos) s = .next ((s.seek pos).answer .ok) := by
  simp [runCommand, patchSeek, hl, ha, done]

theorem runCommand_patchSeek_outside (ha : s.active = false) (pos : CellAddr) :
    runCommand (.patchSeek pos) s = .fault (.protocolFault .seekOutsidePatch) := by
  simp [runCommand, patchSeek, hl, ha]

theorem runCommand_patchEnd (ha : s.active = true) : runCommand .patchEnd s = .next (s.closePatch.answer .ok) := by
  simp [runCommand, patchEnd, hl, ha, done]

theorem runCommand_patchEnd_outside (ha : s.active = false) :
    runCommand .patchEnd s = .fault (.protocolFault .endOutsidePatch) := by
  simp [runCommand, patchEnd, hl, ha]

theorem runCommand_poke (addr : CellAddr) (v : Word) :
    runCommand (.poke addr v) s = .next ((s.setCell addr.toNat v).answer .ok) := by
  simp [runCommand, hostPoke, hl, done]

theorem runCommand_peek (addr : CellAddr) :
    runCommand (.peek addr) s = .next (s.answer (.cell (Memory.read s.mem addr.toNat))) := by
  simp [runCommand, hostPeek, hl]

theorem runCommand_serialize :
    runCommand .serialize s = .next (s.answer (.image (imageBytes s.cfg.byteOrder s.mem))) := by
  simp [runCommand, hostSerialize, hl]

end Commands

/-! ### Every next state, case by case -/

/-- The answers of the commands that only read (R220, R242, R244). -/
def Command.readAnswer (s : State) : Command → Option Answer
  | .getCursor => some (.position s.cursor)
  | .peek addr => some (.cell (Memory.read s.mem addr.toNat))
  | .serialize => some (.image (imageBytes s.cfg.byteOrder s.mem))
  | _ => none

/-- The states a command can leave. -/
inductive Leaves (s : State) : Command → State → Prop
  | emitted {c} (he : c.isEmission = true) (hfit : s.cursor.toNat + c.wordCount ≤ memWords) :
    Leaves s c (s.emitted (c.emittedWords s.cfg s.cursor))
  | rejected {c} (e : EncodingError) (he : c.isEmission = true) (hm : s.cfg.mode = .strict) : Leaves s c (s.rejected e)
  | read {c a} (ha : c.readAnswer s = some a) : Leaves s c (s.answer a)
  | opened : Leaves s .patchBegin (s.openPatch.answer .ok)
  | sought (pos : CellAddr) (ha : s.active = true) : Leaves s (.patchSeek pos) ((s.seek pos).answer .ok)
  | closed (ha : s.active = true) : Leaves s .patchEnd (s.closePatch.answer .ok)
  | poked (addr : CellAddr) (v : Word) : Leaves s (.poke addr v) ((s.setCell addr.toNat v).answer .ok)
  | cleared : Leaves s .reset (s.cleared.answer .ok)

/-- The model faults a command of a live block can meet (R254, R259). -/
inductive Faults (s : State) : Command → Fault → Prop
  | overrun {c} (he : c.isEmission = true) (hm : s.cfg.mode = .compat) (hover : memWords < s.cursor.toNat + c.wordCount) :
    Faults s c .overrun
  | nested (ha : s.active = true) : Faults s .patchBegin (.protocolFault .nested)
  | seekOutside (pos : CellAddr) (ha : s.active = false) : Faults s (.patchSeek pos) (.protocolFault .seekOutsidePatch)
  | endOutside (ha : s.active = false) : Faults s .patchEnd (.protocolFault .endOutsidePatch)

/-- An emission that gives a next state was made in a live block, and completed or was rejected by STRICT. -/
theorem emission_next {c : Command} {s t : State} (he : c.isEmission = true) (h : runCommand c s = .next t) :
    s.Live ∧ ((c.Admitted s ∧ t = s.emitted (c.emittedWords s.cfg s.cursor)) ∨
      (s.cfg.mode = .strict ∧ ∃ e, c.strictError? s.cursor = some e ∧ t = s.rejected e)) := by
  have hl := live_of_runCommand_next h (isEmission_ne_reset he)
  refine ⟨hl, ?_⟩
  rcases admitted_or_error_or_over (s := s) he with hadm | ⟨hm, e, herror⟩ | ⟨hm, hover⟩
  · rw [runCommand_admitted hl he hadm] at h
    cases h
    exact .inl ⟨hadm, rfl⟩
  · rw [runCommand_strict_error hl he hm herror] at h
    cases h
    exact .inr ⟨hm, e, herror, rfl⟩
  · rw [runCommand_compat_over hl he hm hover] at h
    cases h

/-- The case analysis over the commands: in a live block each leaves one of these states or meets one of these faults. -/
theorem runCommand_cases (c : Command) {s : State} (hl : s.Live) :
    (∃ t, runCommand c s = .next t ∧ Leaves s c t) ∨ (∃ f, runCommand c s = .fault f ∧ Faults s c f) := by
  by_cases he : c.isEmission = true
  · rcases admitted_or_error_or_over (s := s) he with hadm | ⟨hm, e, herror⟩ | ⟨hm, hover⟩
    · exact .inl ⟨_, runCommand_admitted hl he hadm, .emitted he hadm.1⟩
    · exact .inl ⟨_, runCommand_strict_error hl he hm herror, .rejected e he hm⟩
    · exact .inr ⟨_, runCommand_compat_over hl he hm hover, .overrun he hm hover⟩
  cases c with
  | getCursor => exact .inl ⟨_, runCommand_getCursor hl, .read rfl⟩
  | peek addr => exact .inl ⟨_, runCommand_peek hl addr, .read rfl⟩
  | serialize => exact .inl ⟨_, runCommand_serialize hl, .read rfl⟩
  | poke addr v => exact .inl ⟨_, runCommand_poke hl addr v, .poked addr v⟩
  | reset => exact .inl ⟨_, runCommand_reset s, .cleared⟩
  | patchBegin =>
    cases ha : s.active with
    | true => exact .inr ⟨_, runCommand_patchBegin_nested hl ha, .nested ha⟩
    | false => exact .inl ⟨_, runCommand_patchBegin hl ha, .opened⟩
  | patchSeek pos =>
    cases ha : s.active with
    | true => exact .inl ⟨_, runCommand_patchSeek hl ha pos, .sought pos ha⟩
    | false => exact .inr ⟨_, runCommand_patchSeek_outside hl ha pos, .seekOutside pos ha⟩
  | patchEnd =>
    cases ha : s.active with
    | true => exact .inl ⟨_, runCommand_patchEnd hl ha, .closed ha⟩
    | false => exact .inr ⟨_, runCommand_patchEnd_outside hl ha, .endOutside ha⟩
  | _ => exact absurd rfl he

theorem runCommand_leaves {c : Command} {s t : State} (h : runCommand c s = .next t) : Leaves s c t := by
  by_cases hc : c = .reset
  · subst hc
    cases h
    exact .cleared
  obtain ⟨u, hu, hleaves⟩ | ⟨f, hf, -⟩ := runCommand_cases c (live_of_runCommand_next h hc)
  · rw [hu] at h
    cases h
    exact hleaves
  · rw [hf] at h
    cases h

theorem faults_of_runCommand_fault {c : Command} {s : State} {f : Fault} (hl : s.Live) (h : runCommand c s = .fault f) :
    Faults s c f := by
  obtain ⟨u, hu, -⟩ | ⟨g, hg, hfaults⟩ := runCommand_cases c hl
  · rw [hu] at h
    cases h
  · rw [hg] at h
    cases h
    exact hfaults

theorem runCommand_fault_of_faults {c : Command} {s : State} {f : Fault} (hl : s.Live) (h : Faults s c f) :
    runCommand c s = .fault f := by
  cases h with
  | overrun he hm hover => exact runCommand_compat_over hl he hm hover
  | nested ha => exact runCommand_patchBegin_nested hl ha
  | seekOutside pos ha => exact runCommand_patchSeek_outside hl ha pos
  | endOutside ha => exact runCommand_patchEnd_outside hl ha

/-! ### An instruction is an emission -/

@[simp] theorem commandOf_wordCount (i : Instr) : (commandOf i).wordCount = i.wordCount := by cases i <;> rfl

theorem commandOf_isEmission (i : Instr) : (commandOf i).isEmission = true := by cases i <;> rfl

theorem commandOf_emittedWords (i : Instr) (cfg : Config) (pos : Cursor) :
    (commandOf i).emittedWords cfg pos = encodeAt cfg.pcIndex pos i := by
  cases i <;> rfl

/-- Operands that fit the encoding raise no error but for space. -/
theorem commandOf_strictError? {i : Instr} {pos : Cursor} (hwf : i.wellFormed pos = true) :
    (commandOf i).strictError? pos = spaceError? i.wordCount pos := by
  have hbranch : ∀ {condition : Code} {target : Addr}, condition.toNat ∈ [4, 5, 14] →
      Addr.inBranchRange pos target = true →
      Command.strictError? pos (.emitBranch condition target) = spaceError? 1 pos := fun hcondition hrange =>
    (if_neg (not_not_intro hcondition)).trans (if_neg (Nat.not_lt.mpr ((inBranchRange_iff _ _).mp hrange)))
  cases i with
  | set reg value => rfl
  | load reg address => exact if_pos (of_decide_eq_true hwf)
  | store address reg => exact if_pos (of_decide_eq_true hwf)
  | goto target => exact if_pos (of_decide_eq_true hwf)
  | bne target => exact hbranch (by decide) hwf
  | beq target => exact hbranch (by decide) hwf
  | bra target => exact hbranch (by decide) hwf
  | _ dst src => rfl

/-- An instruction whose operands and words fit completes with its encoding at the cursor. -/
theorem exec_wellFormed {i : Instr} {s : State} (hl : s.Live) (hwf : i.wellFormed s.cursor = true)
    (hfit : s.cursor.toNat + i.wordCount ≤ memWords) :
    exec i s = .next (s.emitted (encodeAt s.cfg.pcIndex s.cursor i)) := by
  rw [← runCommand_commandOf, ← commandOf_emittedWords]
  refine runCommand_admitted hl (commandOf_isEmission i) ⟨by rwa [commandOf_wordCount], fun _ => ?_⟩
  rw [commandOf_strictError? hwf, spaceError?_eq_none]
  exact hfit

/-- Settles O22: the two states an emission can leave, field by field. -/
theorem instructionsChangeOnlyTheirCells : Obligations.InstructionsChangeOnlyTheirCells := by
  intro i s t h
  rw [← runCommand_commandOf] at h
  have hlen := emittedWords_length (commandOf i) s.cfg s.cursor
  rw [commandOf_wordCount] at hlen
  obtain ⟨-, ⟨⟨hfit, -⟩, rfl⟩ | ⟨hm, e, -, rfl⟩⟩ := emission_next (commandOf_isEmission i) h
  · rw [commandOf_wordCount, ← hlen] at hfit
    refine ⟨rfl, rfl, rfl, rfl, rfl, rfl, rfl, fun a ha => ?_, .inl ⟨rfl, ?_, rfl, rfl⟩⟩
    · exact writeWords_read_outside _ _ _ a (by rwa [hlen])
    · rw [State.emitted_cursor_toNat hfit, hlen]
  · exact ⟨rfl, rfl, rfl, rfl, rfl, rfl, rfl, fun _ _ => rfl, .inr ⟨hm, rfl, rfl, e, rfl⟩⟩

/-! ### What an emission does not depend on -/

/-- An emission reads the model fault, the configuration and the cursor, and nothing else of the state. -/
theorem emission_congr {c : Command} {s s' : State} (he : c.isEmission = true) (hfaulted : s'.faulted = s.faulted)
    (hcfg : s'.cfg = s.cfg) (hcursor : s'.cursor = s.cursor) :
    (∃ ws, s.cursor.toNat + ws.length ≤ memWords ∧ runCommand c s = .next (s.emitted ws) ∧
      runCommand c s' = .next (s'.emitted ws)) ∨
    (∃ e, runCommand c s = .next (s.rejected e) ∧ runCommand c s' = .next (s'.rejected e)) ∨
    (∃ f, runCommand c s = .fault f ∧ runCommand c s' = .fault f) := by
  cases hf : s.faulted with
  | some f =>
    have hc := isEmission_ne_reset he
    exact .inr (.inr ⟨f, runCommand_of_faulted hf hc, runCommand_of_faulted (hfaulted.trans hf) hc⟩)
  | none =>
    have hl' : s'.Live := hfaulted.trans hf
    rcases admitted_or_error_or_over (s := s) he with hadm | ⟨hm, e, herror⟩ | ⟨hm, hover⟩
    · have h' := runCommand_admitted hl' he (by rwa [Command.Admitted, hcfg, hcursor])
      rw [hcfg, hcursor] at h'
      exact .inl ⟨_, by rw [emittedWords_length]; exact hadm.1, runCommand_admitted hf he hadm, h'⟩
    · exact .inr (.inl ⟨e, runCommand_strict_error hf he hm herror,
        runCommand_strict_error hl' he (by rwa [hcfg]) (by rwa [hcursor])⟩)
    · exact .inr (.inr ⟨_, runCommand_compat_over hf he hm hover,
        runCommand_compat_over hl' he (by rwa [hcfg]) (by rwa [hcursor])⟩)

/-- Settles O23: the memory is none of what an emission reads. -/
theorem emittedWordsIgnorePriorContent : Obligations.EmittedWordsIgnorePriorContent := by
  intro c s t he h
  have hlive := live_of_runCommand_next h (isEmission_ne_reset he)
  obtain ⟨-, ⟨hadm, rfl⟩ | ⟨hm, e, herror, rfl⟩⟩ := emission_next he h
  · exact ⟨_, (emittedWords_length c s.cfg s.cursor).le, rfl,
      fun m => runCommand_admitted (s := { s with mem := m }) hlive he hadm⟩
  · exact ⟨[], Nat.zero_le _, rfl,
      fun m => runCommand_strict_error (s := { s with mem := m }) hlive he hm herror⟩

/-- Settles O25: nor are `ACTIVE` and `SAVED`. -/
theorem emissionIgnoresTheFixupRegisters : Obligations.EmissionIgnoresTheFixupRegisters := by
  intro c s b v he
  obtain ⟨ws, -, hs, hs'⟩ | ⟨e, hs, hs'⟩ | ⟨f, hs, hs'⟩ :=
    emission_congr (s := s) (s' := { s with active := b, saved := v }) he rfl rfl rfl
  · rw [hs, hs']
    exact ⟨fun t h => by cases h; rfl, fun f h => (nomatch h)⟩
  · rw [hs, hs']
    exact ⟨fun t h => by cases h; rfl, fun f h => (nomatch h)⟩
  · rw [hs, hs']
    exact ⟨fun t h => (nomatch h), fun f' h => by cases h; rfl⟩

/-- Reading the cells of a completed emission gives its words. -/
theorem readWords_of_emission_ok {c : Command} {s t : State} (he : c.isEmission = true) (hwf : Memory.wf s.mem = true)
    (h : runCommand c s = .next t) (hok : t.lastAnswer = some .ok) :
    readWords t.mem s.cursor.toNat c.wordCount = c.emittedWords s.cfg s.cursor := by
  obtain ⟨-, ⟨⟨hfit, -⟩, rfl⟩ | ⟨-, e, -, rfl⟩⟩ := emission_next he h
  · rw [← emittedWords_length c s.cfg s.cursor] at hfit ⊢
    exact readWords_writeWords hwf hfit
  · cases hok

theorem emittedWords_position {c : Command} (hc : ∀ condition target, c ≠ .emitBranch condition target) (cfg : Config)
    (pos pos' : Cursor) : c.emittedWords cfg pos = c.emittedWords cfg pos' := by
  cases c with
  | emitBranch condition target => exact absurd rfl (hc condition target)
  | _ => rfl

/-- A branch word depends on position and target through their distance alone. -/
theorem encodeBranch_of_same_distance {pos pos' : Cursor} {target target' : Addr}
    (h : (target.toNat : Int) - pos.toNat = (target'.toNat : Int) - pos'.toNat) (pcIndex : Reg) (condition : Code) :
    encodeBranch pcIndex pos condition target = encodeBranch pcIndex pos' condition target' := by
  have hdir : decide (target.toNat < pos.toNat + 1) = decide (target'.toNat < pos'.toNat + 1) :=
    decide_eq_decide.mpr (by omega)
  have hmag : branchMag pos target = branchMag pos' target' := by
    rw [branchMag_eq, branchMag_eq]
    omega
  rw [encodeBranch_eq_word, encodeBranch_eq_word, hdir, hmag]

/-- Settles O24: the cells read back are the encoder's words. -/
theorem wordsDependOnPositionOnlyForBranches : Obligations.WordsDependOnPositionOnlyForBranches := by
  refine ⟨fun c s t t' p he hwf hbranch h h' hok hok' => ?_,
    fun condition target target' s t t' p hwf hdistance h h' hok hok' => ?_⟩
  · rw [readWords_of_emission_ok he hwf h hok]
    exact (readWords_of_emission_ok (s := { s with cursor := p }) he hwf h' hok').trans
      (emittedWords_position hbranch s.cfg p s.cursor)
  · have hcells := readWords_of_emission_ok rfl hwf h hok
    have hcells' := readWords_of_emission_ok (s := { s with cursor := p }) rfl hwf h' hok'
    have hwords : readWords t'.mem p.toNat 1 = readWords t.mem s.cursor.toNat 1 :=
      hcells'.trans ((encodeBranch_of_same_distance hdistance s.cfg.pcIndex condition).symm.trans hcells.symm)
    exact (List.cons.inj hwords).1

/-! ### The cells and the image hold the instruction (95_test_vectors.md S2 to S6, D16) -/

/-- Settles O26: the cells are the encoder's words, which decode to the instruction. -/
theorem emittedCellsDecodeToTheInstruction : Obligations.EmittedCellsDecodeToTheInstruction := by
  intro i s hl hwf hwellFormed hfit
  refine ⟨_, exec_wellFormed hl hwellFormed hfit, ?_⟩
  have hlen : (encodeAt s.cfg.pcIndex s.cursor i).length = i.wordCount := by
    rw [← commandOf_emittedWords, emittedWords_length, commandOf_wordCount]
  rw [← hlen, State.emitted_mem, readWords_writeWords hwf (by rwa [hlen])]
  simpa using decodingAnEncodedInstructionGivesItBack i s.cfg.pcIndex s.cursor [] hwellFormed

/-! Where every element gives two bytes, offsets and lengths in bytes are twice those in elements. -/

theorem flatMap_length_pairs {α β : Type} {f : α → List β} (hf : ∀ x, (f x).length = 2) (l : List α) :
    (l.flatMap f).length = 2 * l.length := by
  rw [List.length_flatMap]
  simp [hf, Nat.mul_comm]

theorem flatMap_drop_pairs {α β : Type} {f : α → List β} (hf : ∀ x, (f x).length = 2) (l : List α) (a : Nat) :
    (l.flatMap f).drop (2 * a) = (l.drop a).flatMap f := by
  induction a generalizing l with
  | zero => rfl
  | succ a ih =>
    cases l with
    | nil => simp
    | cons x l =>
      rw [List.flatMap_cons, Nat.mul_succ, Nat.add_comm, ← List.drop_drop, List.drop_left' (hf x), ih, List.drop_succ_cons]

theorem flatMap_take_pairs {α β : Type} {f : α → List β} (hf : ∀ x, (f x).length = 2) (l : List α) (n : Nat) :
    (l.flatMap f).take (2 * n) = (l.take n).flatMap f := by
  induction n generalizing l with
  | zero => simp
  | succ n ih =>
    cases l with
    | nil => simp
    | cons x l =>
      rw [List.flatMap_cons, List.take_succ_cons, List.flatMap_cons, ← ih, Nat.mul_succ, Nat.add_comm, ← hf x,
        List.take_length_add_append]

@[simp] theorem cellBytes_length (order : ByteOrder) (w : Word) : (cellBytes order w).length = 2 := by
  cases order <;> rfl

/-- The bytes of the image at `n` cells from `a` on are the bytes of those cells. -/
theorem imageBytes_drop_take (order : ByteOrder) (m : Memory) {a n : Nat} (h : a + n ≤ memWords) :
    ((imageBytes order m).drop (2 * a)).take (2 * n) = (readWords m a n).flatMap (cellBytes order) := by
  have hpair : ∀ b, (cellBytes order (Memory.read m b)).length = 2 := fun b => cellBytes_length order _
  have hcells : ((List.range memWords).drop a).take n = (List.range n).map (a + ·) := by
    apply List.ext_getElem
    · simp
      omega
    · simp
  rw [imageBytes, flatMap_drop_pairs hpair, flatMap_take_pairs hpair, hcells, readWords, List.flatMap_map, List.flatMap_map]

/-- High byte and low byte of a word, put together (R55). -/
theorem bytes_append (w : Word) : ((w >>> 8).setWidth 8 ++ w.setWidth 8 : BitVec 16) = w := by
  apply BitVec.eq_of_getLsbD_eq
  intro i hi
  rw [BitVec.getLsbD_append, BitVec.getLsbD_setWidth, BitVec.getLsbD_setWidth, BitVec.getLsbD_ushiftRight]
  split
  · next hlow => simp [hlow]
  · next hhigh => rw [Nat.add_sub_of_le (by omega), decide_eq_true (by omega), Bool.true_and]

/-- The bytes of cells give the cells back, in either order. -/
theorem wordsOfBytes_flatMap (order : ByteOrder) (ws : List Word) :
    wordsOfBytes order (ws.flatMap (cellBytes order)) = .ok ws := by
  induction ws with
  | nil => rfl
  | cons w ws ih =>
    cases order <;> simp only [List.flatMap_cons, cellBytes, List.cons_append, List.nil_append, wordsOfBytes] at ih ⊢ <;>
      rw [ih] <;> simp only [bytes_append]

/-- Settles O27: the bytes of the image at the cursor are those of the cells of `emittedCellsDecodeToTheInstruction`. -/
theorem imageHoldsTheEmittedInstruction : Obligations.ImageHoldsTheEmittedInstruction := by
  intro i s hl hwf hwellFormed hfit
  obtain ⟨t, hexec, hdecode⟩ := emittedCellsDecodeToTheInstruction i s hl hwf hwellFormed hfit
  have ht : t = s.emitted (encodeAt s.cfg.pcIndex s.cursor i) := by
    rw [exec_wellFormed hl hwellFormed hfit] at hexec
    cases hexec
    rfl
  have hcfg : t.cfg = s.cfg := by rw [ht]; rfl
  have hlive : t.Live := by rw [ht]; exact hl
  refine ⟨t, _, _, hexec, runCommand_serialize hlive, rfl, ?_⟩
  rw [hcfg, imageBytes_drop_take _ _ hfit, decodeBytes, wordsOfBytes_flatMap]
  exact hdecode

end Sys2Proof.Machine

/-!
Errors, model faults, the fixup engine, the host commands and the machine's step, from the case analysis `runCommand_cases`.
-/
namespace Sys2Proof.Machine

/-! ### Errors (R256, R257) -/

theorem readAnswer_ne_error (c : Command) (s : State) (e : EncodingError) : c.readAnswer s ≠ some (.error e) := by
  cases c with
  | getCursor | peek | serialize => exact fun h => Answer.noConfusion (Option.some.inj h)
  | _ => exact nofun

/-- The commands that only read answer what they read. -/
theorem runCommand_read {c : Command} {s : State} (hl : s.Live) {a : Answer} (ha : c.readAnswer s = some a) :
    runCommand c s = .next (s.answer a) := by
  cases c with
  | getCursor => cases ha; exact runCommand_getCursor hl
  | peek addr => cases ha; exact runCommand_peek hl addr
  | serialize => cases ha; exact runCommand_serialize hl
  | _ => cases ha

theorem wordCount_of_readAnswer {c : Command} {s : State} {a : Answer} (ha : c.readAnswer s = some a) : c.wordCount = 0 := by
  cases c with
  | getCursor | peek | serialize => rfl
  | _ => cases ha

/-- An error is the result of an emission that STRICT rejected. -/
theorem rejected_of_lastAnswer_error {c : Command} {s t : State} {e : EncodingError} (h : runCommand c s = .next t)
    (he : t.lastAnswer = some (.error e)) : s.cfg.mode = .strict ∧ c.isEmission = true ∧ t = s.rejected e := by
  cases runCommand_leaves h with
  | rejected e' hemission hm =>
    cases he
    exact ⟨hm, hemission, rfl⟩
  | read ha =>
    rw [State.lastAnswer_answer] at he
    exact absurd (ha.trans he) (readAnswer_ne_error _ _ _)
  | _ => cases he

/-- Settles O28: an error is `State.rejected`, whose fields are written out. -/
theorem errorsArePreciseAndRecordedOnce : Obligations.ErrorsArePreciseAndRecordedOnce := by
  intro c s t e h he
  obtain ⟨hm, hemission, rfl⟩ := rejected_of_lastAnswer_error h he
  have hl := live_of_runCommand_next h (isEmission_ne_reset hemission)
  refine ⟨hm, hemission, rfl, rfl, rfl, rfl, rfl, hl, rfl, rfl, rfl, fun hnone => ?first, fun hsome => ?later⟩
  case first =>
    rw [State.rejected_faultPos, State.rejected_faultCode, if_pos hnone, if_pos hnone]
    exact ⟨rfl, fun hk => by rw [hk]; rfl, fun hk => by rw [hk]; rfl, fun hk => by rw [hk]; rfl⟩
  case later =>
    rw [State.rejected_faultPos, State.rejected_faultCode, if_neg hsome, if_neg hsome]
    exact ⟨rfl, rfl⟩

/-- Apart from `reset()`, only a rejection touches the error record. -/
theorem record_kept_or_rejected {c : Command} {s t : State} (h : runCommand c s = .next t) (hc : c ≠ .reset) :
    (t.faultCode = s.faultCode ∧ t.faultPos = s.faultPos) ∨ (s.cfg.mode = .strict ∧ ∃ e, t = s.rejected e) := by
  cases runCommand_leaves h with
  | rejected e _ hm => exact .inr ⟨hm, e, rfl⟩
  | cleared => exact absurd rfl hc
  | _ => exact .inl ⟨rfl, rfl⟩

/-- What a step leaves: the state itself when nothing is issued, what the command leaves, or the faulted state. -/
theorem step_next {s t : State} (h : step s = .next t) :
    (s.pending = [] ∧ t = s) ∨ ∃ c rest, s.pending = c :: rest ∧
      (runCommand c { s with pending := rest } = .next t ∨
        ∃ f, runCommand c { s with pending := rest } = .fault f ∧ s.Live ∧
          t = State.enterFaulted f { s with pending := rest }) := by
  cases hp : s.pending with
  | nil =>
    rw [step_of_empty hp] at h
    cases h
    exact .inl ⟨rfl, rfl⟩
  | cons c rest =>
    rw [step_of_pending hp] at h
    exact .inr ⟨c, rest, rfl, settle_next h⟩

/-- Settles O29: a step touches the record through its command alone. -/
theorem firstErrorIsStickyUntilReset : Obligations.FirstErrorIsStickyUntilReset := by
  intro s t h hreset
  have hrecord : (t.faultCode = s.faultCode ∧ t.faultPos = s.faultPos) ∨
      ∃ e rest, t = State.rejected e { s with pending := rest } := by
    obtain ⟨-, rfl⟩ | ⟨c, rest, hp, h | ⟨f, -, -, rfl⟩⟩ := step_next h
    · exact .inl ⟨rfl, rfl⟩
    · have hc : c ≠ .reset := fun hc => hreset rest (hc ▸ hp)
      exact (record_kept_or_rejected h hc).imp id fun ⟨_, e, ht⟩ => ⟨e, rest, ht⟩
    · exact .inl ⟨rfl, rfl⟩
  obtain ⟨hcode, hpos⟩ | ⟨e, rest, rfl⟩ := hrecord
  · exact ⟨fun _ => ⟨hcode, hpos⟩, fun hnone => .inl ⟨hcode.trans hnone, hpos⟩⟩
  · exact ⟨fun hsome => ⟨if_neg hsome, if_neg hsome⟩, fun _ => .inr ⟨e, rfl⟩⟩

/-- Settles O30: rejections are STRICT's, and in COMPAT the space check is the only one. -/
theorem compatModeSignalsNothing : Obligations.CompatModeSignalsNothing := by
  intro c s hm
  have hnot : s.cfg.mode ≠ .strict := by rw [hm]; decide
  refine ⟨fun t h => ⟨fun e he => hnot (rejected_of_lastAnswer_error h he).1, fun hc => ?_⟩, fun hl he hfit => ?_⟩
  · exact (record_kept_or_rejected h hc).resolve_right fun hr => hnot hr.1
  · exact ⟨_, runCommand_admitted hl he ⟨hfit, fun hs => absurd hs hnot⟩, rfl⟩

/-! ### Model faults (R254, R258, R259) -/

theorem runCommand_ne_refused (c : Command) (s : State) (r : Refusal) : runCommand c s ≠ .refused r := by
  intro h
  by_cases hc : c = .reset
  · rw [hc, runCommand_reset] at h
    cases h
  cases hf : s.faulted with
  | some f =>
    rw [runCommand_of_faulted hf hc] at h
    cases h
  | none =>
    obtain ⟨t, ht, -⟩ | ⟨f, ht, -⟩ := runCommand_cases c hf <;> rw [ht] at h <;> cases h

/-- Settles O31: the four causes of `Faults`, and no refusal by `runCommand_cases`. -/
theorem modelFaultsAreOverrunAndPatchMisuse : Obligations.ModelFaultsAreOverrunAndPatchMisuse := by
  refine fun c s hl => ⟨fun f => ⟨fun h => ?faults, fun h => runCommand_fault_of_faults hl ?causes⟩, fun r h => ?refused⟩
  case faults =>
    cases faults_of_runCommand_fault hl h with
    | overrun he hm hover => exact .inl ⟨hm, he, hover, rfl⟩
    | nested ha => exact .inr (.inl ⟨rfl, ha, rfl⟩)
    | seekOutside pos ha => exact .inr (.inr (.inl ⟨⟨pos, rfl⟩, ha, rfl⟩))
    | endOutside ha => exact .inr (.inr (.inr ⟨rfl, ha, rfl⟩))
  case causes =>
    obtain ⟨hm, he, hover, rfl⟩ | ⟨rfl, ha, rfl⟩ | ⟨⟨pos, rfl⟩, ha, rfl⟩ | ⟨rfl, ha, rfl⟩ := h
    · exact .overrun he hm hover
    · exact .nested ha
    · exact .seekOutside pos ha
    · exact .endOutside ha
  case refused => exact runCommand_ne_refused c s r h

theorem step_issue (c : Command) (s : State) : step (s.issue c) = settle s (runCommand c s) :=
  step_of_pending (s := s.issue c) rfl

/-- A model fault of a live block becomes the faulted state. -/
theorem settle_fault_of_live {s : State} (hl : s.Live) (f : Fault) : settle s (.fault f) = .next (s.enterFaulted f) := by
  simp [settle, hl]

theorem settle_fault_of_faulted {s : State} (hl : ¬ s.Live) (f : Fault) : settle s (.fault f) = .fault f := by
  simp [settle, Option.isSome_iff_ne_none.mpr hl]

/-- Settles O32: every command but `reset()` is guarded by `whenLive`, and the step hands the fault on. -/
theorem faultedBlockStopsUntilReset : Obligations.FaultedBlockStopsUntilReset := by
  intro s f hf
  refine ⟨fun i => ?_, fun c hc => ⟨runCommand_of_faulted hf hc, ?_⟩, ⟨_, runCommand_reset s, rfl⟩,
    ⟨s.cleared.answer .ok, ?_, rfl⟩⟩
  · rw [← runCommand_commandOf]
    exact runCommand_of_faulted hf (isEmission_ne_reset (commandOf_isEmission i))
  · rw [step_issue, runCommand_of_faulted hf hc, settle_fault_of_faulted (by simp [hf])]
  · rw [step_issue, runCommand_reset]
    rfl

/-- Settles O33: `settle` keeps the fault of a live block. -/
theorem modelFaultIsKeptByTheStep : Obligations.ModelFaultIsKeptByTheStep := by
  intro s c rest f hl hp h
  rw [step_of_pending hp, h]
  exact settle_fault_of_live (s := { s with pending := rest }) hl f

/-! ### The fixup engine (45_fixup.md) -/

/-- Settles O35: the two branches of `patchBegin`. -/
theorem patchBeginSavesTheCursor : Obligations.PatchBeginSavesTheCursor :=
  fun _ hl => ⟨runCommand_patchBegin hl, runCommand_patchBegin_nested hl⟩

/-- Settles O36: the two branches of `patchSeek`; a cell address fits the cursor. -/
theorem patchSeekMovesTheCursor : Obligations.PatchSeekMovesTheCursor := fun pos _ hl =>
  ⟨fun ha => ⟨_, runCommand_patchSeek hl ha pos, BitVec.toNat_setWidth_of_le (by decide), rfl⟩,
    fun ha => runCommand_patchSeek_outside hl ha pos⟩

/-- Settles O37: the two branches of `patchEnd`. -/
theorem patchEndRestoresTheCursor : Obligations.PatchEndRestoresTheCursor :=
  fun _ hl => ⟨runCommand_patchEnd hl, runCommand_patchEnd_outside hl⟩

/-- Settles O40: of the states in `Leaves` only three differ in these registers. -/
theorem fixupRegistersHaveTheirWritersOnly : Obligations.FixupRegistersHaveTheirWritersOnly := by
  intro c s t h
  cases runCommand_leaves h with
  | opened => exact ⟨fun hc => absurd rfl hc, fun hc => absurd rfl hc⟩
  | closed _ => exact ⟨fun _ _ => rfl, fun _ hc => absurd rfl hc⟩
  | cleared => exact ⟨fun _ hc => absurd rfl hc, fun _ _ hc => absurd rfl hc⟩
  | _ => exact ⟨fun _ _ => rfl, fun _ _ _ => rfl⟩

/-! ### Sequences of commands (R245) -/

/-- A sequence that completes does so command by command. -/
theorem runCommands_cons_eq_next {c : Command} {rest : List Command} {s u : State}
    (h : runCommands (c :: rest) s = .next u) : ∃ t, runCommand c s = .next t ∧ runCommands rest t = .next u := by
  rw [runCommands] at h
  cases hc : runCommand c s with
  | next t => rw [hc] at h; exact ⟨t, rfl, h⟩
  | fault f => rw [hc] at h; cases h
  | refused r => rw [hc] at h; cases h

theorem runCommands_append_eq_next {l l' : List Command} {s u : State} :
    runCommands (l ++ l') s = .next u ↔ ∃ t, runCommands l s = .next t ∧ runCommands l' t = .next u := by
  induction l generalizing s with
  | nil => exact ⟨fun h => ⟨s, rfl, h⟩, fun ⟨t, ht, h⟩ => by cases ht; exact h⟩
  | cons c l ih =>
    constructor
    · intro h
      obtain ⟨v, hv, hrest⟩ := runCommands_cons_eq_next h
      rw [runCommands_cons_of_next hv]
      exact ih.mp hrest
    · rintro ⟨t, ht, h⟩
      obtain ⟨v, hv, hrest⟩ := runCommands_cons_eq_next ht
      rw [List.cons_append, runCommands_cons_of_next hv]
      exact ih.mpr ⟨t, hrest, h⟩

/-- What every command of a sequence keeps, the sequence keeps. -/
theorem runCommands_keeps {P : State → Prop} {l : List Command}
    (hkeeps : ∀ c ∈ l, ∀ s t, P s → runCommand c s = .next t → P t) {s t : State} (hs : P s)
    (h : runCommands l s = .next t) : P t := by
  induction l generalizing s with
  | nil => cases h; exact hs
  | cons c l ih =>
    obtain ⟨hc, hl⟩ := List.forall_mem_cons.mp hkeeps
    obtain ⟨v, hv, hrest⟩ := runCommands_cons_eq_next h
    exact ih hl (hc s v hs hv) hrest

/-- Settles O38: the body leaves `SAVED` and `ACTIVE` alone, so `patchEnd` finds what `patchBegin` saved. -/
theorem patchPassRestoresTheCursor : Obligations.PatchPassRestoresTheCursor := by
  intro s t body hbody h
  obtain ⟨u, hu, hrest⟩ := runCommands_cons_eq_next h
  obtain ⟨v, hv, hend⟩ := runCommands_append_eq_next.mp hrest
  obtain ⟨w, hw, hdone⟩ := runCommands_cons_eq_next hend
  cases hdone
  have hopen : u.saved = s.cursor ∧ u.active = true := by
    cases runCommand_leaves hu with
    | opened => exact ⟨rfl, rfl⟩
    | emitted he | rejected _ he => cases he
    | read ha => cases ha
  have hkept : v.saved = s.cursor ∧ v.active = true := by
    refine runCommands_keeps (P := fun x => x.saved = s.cursor ∧ x.active = true) (fun c hc x y hx hxy => ?_) hopen hv
    obtain ⟨hreset, hbegin, hend⟩ := hbody c hc
    obtain ⟨hsaved, hactive⟩ := fixupRegistersHaveTheirWritersOnly c x y hxy
    exact ⟨(hsaved hbegin hreset).trans hx.1, (hactive hbegin hend hreset).trans hx.2⟩
  cases runCommand_leaves hw with
  | closed _ => exact ⟨hkept.1, rfl⟩
  | emitted he | rejected _ he => cases he
  | read ha => cases ha

/-! ### Patching (R227, R230) -/

/-- As many words written again at the same place replace the first ones. -/
theorem writeWords_writeWords_same {m : Memory} {a : Nat} {ws ws' : List Word} (h : Memory.wf m = true)
    (hlen : ws.length = ws'.length) (hf : a + ws'.length ≤ memWords) :
    writeWords (writeWords m a ws) a ws' = writeWords m a ws' := by
  have hwf : Memory.wf (writeWords m a ws) = true := writeWords_wf h (by omega)
  refine Memory.ext (writeWords_wf hwf hf) (writeWords_wf h hf) fun b => ?_
  by_cases hb : b < a ∨ a + ws'.length ≤ b
  · rw [writeWords_read_outside _ _ _ _ hb, writeWords_read_outside _ _ _ _ (by omega), writeWords_read_outside _ _ _ _ hb]
  · obtain ⟨k, rfl⟩ := Nat.exists_eq_add_of_le (show a ≤ b by omega)
    rw [writeWords_read_inside hwf hf k (by omega), writeWords_read_inside h hf k (by omega)]

/-- Words written at places apart may be written in either order. -/
theorem writeWords_comm {m : Memory} {a b : Nat} {ws vs : List Word} (h : Memory.wf m = true) (hab : a + ws.length ≤ b)
    (hf : b + vs.length ≤ memWords) : writeWords (writeWords m b vs) a ws = writeWords (writeWords m a ws) b vs := by
  have hfa : a + ws.length ≤ memWords := by omega
  have hwfa : Memory.wf (writeWords m a ws) = true := writeWords_wf h hfa
  have hwfb : Memory.wf (writeWords m b vs) = true := writeWords_wf h hf
  refine Memory.ext (writeWords_wf hwfb hfa) (writeWords_wf hwfa hf) fun c => ?_
  by_cases hc : c < a ∨ a + ws.length ≤ c
  · rw [writeWords_read_outside _ _ _ _ hc]
    by_cases hcb : c < b ∨ b + vs.length ≤ c
    · rw [writeWords_read_outside _ _ _ _ hcb, writeWords_read_outside _ _ _ _ hcb, writeWords_read_outside _ _ _ _ hc]
    · obtain ⟨k, rfl⟩ := Nat.exists_eq_add_of_le (show b ≤ c by omega)
      rw [writeWords_read_inside h hf k (by omega), writeWords_read_inside hwfa hf k (by omega)]
  · obtain ⟨k, rfl⟩ := Nat.exists_eq_add_of_le (show a ≤ c by omega)
    rw [writeWords_read_inside hwfb hfa k (by omega), writeWords_read_outside _ _ _ _ (by omega),
      writeWords_read_inside h hfa k (by omega)]

/-- `u` runs beside `t`, outside a patch pass, with other content in the cells from `a` on: writing `ws` there gives the memory
of `t`. -/
structure Unpatched (cfg : Config) (a : Nat) (ws : List Word) (t u : State) : Prop where
  live : t.Live ∧ u.Live
  idle : t.active = false ∧ u.active = false
  cfg_eq : t.cfg = cfg ∧ u.cfg = cfg
  cursor_eq : u.cursor = t.cursor
  record_eq : u.faultCode = t.faultCode ∧ u.faultPos = t.faultPos
  wf : Memory.wf u.mem = true
  behind : a + ws.length ≤ t.cursor.toNat
  patched : writeWords u.mem a ws = t.mem

/-- A command that appends and does not emit reads, in every state. -/
theorem readAnswer_of_appends {c : Command} (hc : c.appends = true) (he : c.isEmission ≠ true) (s : State) :
    ∃ a, c.readAnswer s = some a := by
  cases c with
  | getCursor | peek | serialize => exact ⟨_, rfl⟩
  | patchBegin | patchSeek | patchEnd | reset | poke => cases hc
  | _ => exact absurd rfl he

/-- An appending command keeps the two runs side by side. -/
theorem Unpatched.append {cfg : Config} {a : Nat} {ws : List Word} {t u t' : State} {c : Command}
    (h : Unpatched cfg a ws t u) (hc : c.appends = true) (ht : runCommand c t = .next t') :
    ∃ u', runCommand c u = .next u' ∧ Unpatched cfg a ws t' u' := by
  obtain ⟨⟨htl, hul⟩, hidle, hcfg, hcursor, ⟨hcode, hpos⟩, hwf, hbehind, hpatched⟩ := h
  have hcfgs : u.cfg = t.cfg := hcfg.2.trans hcfg.1.symm
  by_cases he : c.isEmission = true
  · obtain ⟨vs, hfit, ht', hu'⟩ | ⟨e, ht', hu'⟩ | ⟨f, ht', -⟩ :=
      emission_congr he (hul.trans htl.symm) hcfgs hcursor <;>
      rw [ht'] at ht <;> cases ht
    · refine ⟨_, hu', ⟨htl, hul⟩, hidle, hcfg, ?_, ⟨hcode, hpos⟩, ?_, ?_, ?_⟩
      · simp only [State.emitted, hcursor]
      · rw [State.emitted_mem, hcursor]
        exact writeWords_wf hwf hfit
      · rw [State.emitted_cursor_toNat hfit]
        omega
      · rw [State.emitted_mem, State.emitted_mem, hcursor, writeWords_comm hwf hbehind hfit, hpatched]
    · refine ⟨_, hu', ⟨htl, hul⟩, hidle, hcfg, hcursor, ?_, hwf, hbehind, hpatched⟩
      simp only [State.rejected_faultCode, State.rejected_faultPos, hcode, hpos, hcursor, and_self]
  · obtain ⟨x, hx⟩ := readAnswer_of_appends hc he t
    obtain ⟨y, hy⟩ := readAnswer_of_appends hc he u
    rw [runCommand_read htl hx] at ht
    cases ht
    exact ⟨_, runCommand_read hul hy, ⟨htl, hul⟩, hidle, hcfg, hcursor, ⟨hcode, hpos⟩, hwf, hbehind, hpatched⟩

theorem Unpatched.appends {cfg : Config} {a : Nat} {ws : List Word} {body : List Command} {t u t' : State}
    (h : Unpatched cfg a ws t u) (hbody : ∀ c ∈ body, c.appends = true) (ht : runCommands body t = .next t') :
    ∃ u', runCommands body u = .next u' ∧ Unpatched cfg a ws t' u' := by
  induction body generalizing t u with
  | nil => cases ht; exact ⟨u, rfl, h⟩
  | cons c body ih =>
    obtain ⟨hc, hrest⟩ := List.forall_mem_cons.mp hbody
    obtain ⟨v, hv, hvt⟩ := runCommands_cons_eq_next ht
    obtain ⟨v', hv', hside⟩ := h.append hc hv
    rw [runCommands_cons_of_next hv']
    exact ih hside hrest hvt

/-- Calls of one primitive are emissions of as many words. -/
theorem emissions_of_samePrimitive {c c' : Command} (h : c.samePrimitive c') :
    c.isEmission = true ∧ c'.isEmission = true ∧ c.wordCount = c'.wordCount := by
  unfold Command.samePrimitive at h
  split at h
  · exact ⟨rfl, rfl, rfl⟩
  · exact ⟨rfl, rfl, rfl⟩
  · exact h.elim

/-- Where a patch pass stands once it is opened and the cursor relocated. -/
def State.patchingAt (pos : CellAddr) (s : State) : State := ((s.openPatch.answer .ok).seek pos).answer .ok

/-- A patch pass with one emission in it. -/
theorem runCommands_patch {pos : CellAddr} {real : Command} {u : State} (hl : u.Live) (hidle : u.active = false)
    (he : real.isEmission = true) (hadm : real.Admitted (u.patchingAt pos)) :
    runCommands [.patchBegin, .patchSeek pos, real, .patchEnd] u =
      .next (((u.patchingAt pos).emitted (real.emittedWords u.cfg (pos.setWidth 18))).closePatch.answer .ok) := by
  have hend := runCommand_patchEnd (s := (u.patchingAt pos).emitted (real.emittedWords u.cfg (pos.setWidth 18))) hl rfl
  rw [runCommands_cons_of_next (runCommand_patchBegin hl hidle),
    runCommands_cons_of_next (runCommand_patchSeek (s := u.openPatch.answer .ok) hl rfl pos)]
  exact (runCommands_cons_of_next (runCommand_admitted (s := u.patchingAt pos) hl he hadm) _).trans
    (runCommands_cons_of_next hend [])

/-- A patch pass over the place of `real`'s words leaves the patched run's memory, cursor, `ACTIVE` and error record. -/
theorem Unpatched.patch {pos : CellAddr} {cfg : Config} {real : Command} {t u : State} (he : real.isEmission = true)
    (h : Unpatched cfg pos.toNat (real.emittedWords cfg (pos.setWidth 18)) t u)
    (hfit : pos.toNat + real.wordCount ≤ memWords)
    (hchecks : cfg.mode = .strict → real.strictError? (pos.setWidth 18) = none) :
    ∃ v, runCommands [.patchBegin, .patchSeek pos, real, .patchEnd] u = .next v ∧
      v.mem = t.mem ∧ v.cursor = t.cursor ∧ v.active = t.active ∧ v.faultCode = t.faultCode ∧
      v.faultPos = t.faultPos := by
  obtain ⟨⟨htl, hul⟩, ⟨hti, hui⟩, ⟨-, rfl⟩, hcursor, ⟨hcode, hpos⟩, hwf, hbehind, hpatched⟩ := h
  have hnat : (pos.setWidth 18).toNat = pos.toNat := BitVec.toNat_setWidth_of_le (by decide)
  refine ⟨_, runCommands_patch hul hui he ⟨hnat.symm ▸ hfit, hchecks⟩, ?_, hcursor, hti.symm, hcode, hpos⟩
  rw [← hpatched, ← hnat]
  rfl

/-- Settles O39: the placeholder's run is `Unpatched` beside the other, every appending command keeps it so, and the
patch writes the missing words. -/
theorem patchingEqualsEmittingTheRealTarget : Obligations.PatchingEqualsEmittingTheRealTarget := by
  intro s t placeholder real body pos hl hidle hwf hcursor hsame hbody hchecks h
  obtain ⟨hep, her, hcount⟩ := emissions_of_samePrimitive hsame
  have hnat : s.cursor.toNat = pos.toNat := by rw [hcursor]; exact BitVec.toNat_setWidth_of_le (by decide)
  obtain ⟨t₁, ht₁, hrest⟩ := runCommands_cons_eq_next h
  obtain ⟨-, ⟨hadm, rfl⟩ | ⟨hm, e, herror, -⟩⟩ := emission_next her ht₁
  · have hadm' : placeholder.Admitted s := ⟨hcount ▸ hadm.1, fun hm => (hchecks hm).1⟩
    have hfit := hadm.1
    have hlen := emittedWords_length real s.cfg s.cursor
    have hlen' := emittedWords_length placeholder s.cfg s.cursor
    have hside : Unpatched s.cfg pos.toNat (real.emittedWords s.cfg (pos.setWidth 18))
        (s.emitted (real.emittedWords s.cfg s.cursor)) (s.emitted (placeholder.emittedWords s.cfg s.cursor)) := by
      rw [← hcursor, ← hnat]
      refine ⟨⟨hl, hl⟩, ⟨hidle, hidle⟩, ⟨rfl, rfl⟩, ?_, ⟨rfl, rfl⟩, ?_, ?_, ?_⟩
      · simp only [State.emitted, hlen, hlen', hcount]
      · exact writeWords_wf hwf (by rw [hlen', hcount]; exact hfit)
      · rw [State.emitted_cursor_toNat (by rwa [hlen])]
      · exact writeWords_writeWords_same hwf (by rw [hlen, hlen', hcount]) (by rwa [hlen])
    obtain ⟨u, hu, hend⟩ := hside.appends hbody hrest
    obtain ⟨v, hv, hsame⟩ := hend.patch her (hnat ▸ hfit) fun hm => hcursor ▸ (hchecks hm).2
    rw [runCommands_cons_of_next (runCommand_admitted hl hep hadm')]
    exact ⟨v, runCommands_append_eq_next.mpr ⟨u, hu, hv⟩, hsame⟩
  · rw [(hchecks hm).2] at herror
    cases herror

/-! ### Host commands and memory (46_host_interface.md, 20_memory.md) -/

theorem codeStart_cursor_toNat (cfg : Config) : (cfg.codeStart.setWidth 18).toNat = cfg.codeStart.toNat :=
  BitVec.toNat_setWidth_of_le (by decide)

/-- Settles O41: the fields of `State.powerOn`. -/
theorem powerOnLeavesTheResetValues : Obligations.PowerOnLeavesTheResetValues :=
  ⟨fun cfg => ⟨Memory.read_nil, codeStart_cursor_toNat cfg, rfl, rfl, rfl, rfl, rfl, rfl⟩, rfl⟩

/-- Settles O42: `reset()` is not guarded, and leaves `State.cleared`. -/
theorem resetCommandInitialisesTheSession : Obligations.ResetCommandInitialisesTheSession := fun s =>
  ⟨_, runCommand_reset s, Memory.read_nil, rfl, codeStart_cursor_toNat s.cfg, rfl, rfl, rfl, rfl, rfl, rfl, rfl⟩

/-- Settles O43: a write of one cell. -/
theorem pokeWritesOneCell : Obligations.PokeWritesOneCell := fun addr v s hl hwf =>
  ⟨_, runCommand_poke hl addr v, Memory.read_write_same hwf _ v, fun _ ha => Memory.read_write_ne ha s.mem v, rfl⟩

/-- Settles O44: the read of `Memory.read_write` after the write of `poke`. -/
theorem peekReturnsTheLatestWrite : Obligations.PeekReturnsTheLatestWrite := by
  refine ⟨fun addr s hl => runCommand_peek hl addr, fun addr addr' v s hl hwf => ?_⟩
  refine ⟨_, _, runCommand_poke hl addr v, runCommand_peek (s := (s.setCell addr.toNat v).answer .ok) hl addr', ?_⟩
  rw [State.lastAnswer_answer, State.answer_mem, State.setCell_mem, Memory.read_write hwf]
  simp only [BitVec.toNat_inj]

/-- The bytes of one cell in the image. -/
theorem imageBytes_getElem? (order : ByteOrder) (m : Memory) {a k : Nat} (ha : a < memWords) (hk : k < 2) :
    (imageBytes order m)[2 * a + k]? = (cellBytes order (Memory.read m a))[k]? := by
  have hcell := imageBytes_drop_take order m (a := a) (n := 1) ha
  have hread : (readWords m a 1).flatMap (cellBytes order) = cellBytes order (Memory.read m a) := by
    simp [readWords]
  rw [hread] at hcell
  rw [← hcell, List.getElem?_take_of_lt hk, List.getElem?_drop]

theorem imageBytes_length (order : ByteOrder) (m : Memory) : (imageBytes order m).length = 2 * memWords := by
  rw [imageBytes, flatMap_length_pairs fun b => cellBytes_length order _, List.length_range]

/-- Settles O45: each cell's two bytes stand at twice its address. -/
theorem serializeReturnsEveryCell : Obligations.SerializeReturnsEveryCell := by
  intro s hl
  have hlow : ∀ w : Word, w.setWidth 8 = w.extractLsb' 0 8 := fun w => BitVec.eq_of_toNat_eq (by simp)
  have hhigh : ∀ w : Word, (w >>> 8).setWidth 8 = w.extractLsb' 8 8 := fun w => BitVec.eq_of_toNat_eq (by simp)
  refine ⟨_, runCommand_serialize hl, imageBytes_length _ _, fun a ha horder => ?_, fun a ha horder => ?_⟩ <;>
    rw [horder, ← hlow, ← hhigh] <;>
    exact ⟨imageBytes_getElem? _ _ ha (k := 0) (by decide), imageBytes_getElem? _ _ ha (k := 1) (by decide)⟩

/-- Settles O46: of the states in `Leaves` only an emission's and `poke`'s have another memory. -/
theorem commandsWriteOnlyTheirCells : Obligations.CommandsWriteOnlyTheirCells := by
  intro c s t a h hc hpoke ha
  cases runCommand_leaves h with
  | emitted he hfit => exact writeWords_read_outside _ _ _ _ (by rwa [emittedWords_length])
  | poked addr v => exact Memory.read_write_ne (hpoke addr v rfl) _ _
  | cleared => exact absurd rfl hc
  | _ => rfl

/-- Settles O47: the cursor of each state in `Leaves`; the two that move it otherwise need `ACTIVE` to be 1. -/
theorem cursorAdvancesByTheWordCount : Obligations.CursorAdvancesByTheWordCount := by
  intro c s t h hc
  cases runCommand_leaves h with
  | emitted he hfit =>
    rw [← emittedWords_length c s.cfg s.cursor] at hfit
    have hcursor := State.emitted_cursor_toNat hfit
    rw [emittedWords_length] at hcursor
    exact ⟨fun _ _ => .inl hcursor, fun _ => by omega⟩
  | rejected e he hm => exact ⟨fun _ _ => .inr ⟨rfl, e, rfl⟩, fun _ => le_rfl⟩
  | read ha => exact ⟨fun _ _ => .inl (by rw [wordCount_of_readAnswer ha]; rfl), fun _ => le_rfl⟩
  | opened => exact ⟨fun _ _ => .inl rfl, fun _ => le_rfl⟩
  | poked addr v => exact ⟨fun _ _ => .inl rfl, fun _ => le_rfl⟩
  | sought pos ha => exact ⟨fun hseek => absurd rfl (hseek pos), fun hidle => by rw [ha] at hidle; cases hidle⟩
  | closed ha => exact ⟨fun _ hend => absurd rfl hend, fun hidle => by rw [ha] at hidle; cases hidle⟩
  | cleared => exact absurd rfl hc

/-! ### The machine (R7) -/

/-- Settles O48: `withFetchWord` issues the call that emits the row, and that call is the row's meaning. -/
theorem stepRunsTheDecodedInstruction : Obligations.StepRunsTheDecodedInstruction := by
  intro s nbits w i rest hdecode
  have hfetch : s.withFetchWord nbits w = s.issue (commandOf i) := by
    have hi : decodeTableWordAt s.cfg.pcIndex s.cursor nbits w = some i := by rw [decodeTableWordAt, hdecode]
    rw [State.withFetchWord, issueTableWord, hi]
  have hstep : step (s.withFetchWord nbits w) = settle s (exec i s) := by
    rw [hfetch, step_issue, runCommand_commandOf]
  rw [hstep]
  exact ⟨fun t h => by rw [h]; rfl, fun f h hl => by rw [h, settle_fault_of_live hl],
    fun f h hl => by rw [h, settle_fault_of_faulted hl]⟩

/-- A completed command leaves what is still to be issued, and adds one result. -/
theorem pending_results_of_runCommand_next {c : Command} {s t : State} (h : runCommand c s = .next t) :
    t.pending = s.pending ∧ ∃ r, t.results = r :: s.results := by
  cases runCommand_leaves h <;> exact ⟨rfl, _, rfl⟩

/-- Settles O49: `settle` keeps a next state, and each state in `Leaves` has one more result. -/
theorem stepPerformsOneCommand : Obligations.StepPerformsOneCommand := by
  refine fun s => ⟨step_of_empty, fun c rest hp => ⟨fun t h => ?next, fun r h => ?refused⟩⟩
  case next =>
    obtain ⟨hpending, r, hresults⟩ := pending_results_of_runCommand_next h
    exact ⟨by rw [step_of_pending hp, h]; rfl, hpending, by rw [hresults]; rfl, by rw [hresults]; rfl⟩
  case refused =>
    rw [step_of_pending hp] at h
    cases ho : runCommand c { s with pending := rest } with
    | next t => rw [ho] at h; cases h
    | refused r' => exact runCommand_ne_refused _ _ _ ho
    | fault f =>
      rw [ho, settle] at h
      split at h <;> cases h

theorem cfg_of_runCommand_next {c : Command} {s t : State} (h : runCommand c s = .next t) : t.cfg = s.cfg := by
  cases runCommand_leaves h <;> rfl

/-- Settles O50: no state in `Leaves` and no faulted state has another configuration. -/
theorem configurationNeverChanges : Obligations.ConfigurationNeverChanges := by
  intro s t h
  obtain ⟨-, rfl⟩ | ⟨c, rest, -, h | ⟨f, -, -, rfl⟩⟩ := step_next h
  · rfl
  · have hcfg := cfg_of_runCommand_next h
    exact hcfg
  · rfl

/-! ### The invariants (R35) -/

theorem cellAddr_cursor_le (pos : CellAddr) : (pos.setWidth 18).toNat ≤ memWords := by
  rw [BitVec.toNat_setWidth_of_le (by decide)]
  exact pos.isLt.le

/-- Settles O51: the power-on state field by field. -/
theorem powerOnSatisfiesTheInvariants : Obligations.PowerOnSatisfiesTheInvariants := by
  have hpowerOn : ∀ cfg : Config, (State.powerOn cfg).Inv := fun cfg =>
    { mem_wf := rfl
      cursor_le := cellAddr_cursor_le cfg.codeStart
      saved_le := nofun
      faultPos_le := Nat.zero_le _
      compat_silent := fun _ => rfl
      no_error_pos := fun _ => rfl }
  exact ⟨hpowerOn, hpowerOn Config.chosen⟩

section Invariants
variable {s : State} (h : s.Inv)
include h

theorem State.Inv.emitted {ws : List Word} (hfit : s.cursor.toNat + ws.length ≤ memWords) : (s.emitted ws).Inv :=
  { h with
    mem_wf := writeWords_wf h.mem_wf hfit
    cursor_le := by rwa [State.emitted_cursor_toNat hfit] }

theorem State.Inv.rejected (e : EncodingError) (hm : s.cfg.mode = .strict) : (s.rejected e).Inv :=
  { h with
    faultPos_le := by
      rw [State.rejected_faultPos]
      split
      · exact h.cursor_le
      · exact h.faultPos_le
    compat_silent := fun hcompat => by cases hm.symm.trans hcompat
    no_error_pos := fun hnone => by
      rw [State.rejected_faultCode] at hnone
      split at hnone
      · exact absurd hnone e.kind.code_ne_zero
      · next hsome => exact absurd hnone hsome }

theorem State.Inv.answer (a : Answer) : (s.answer a).Inv := { h with }

theorem State.Inv.openPatch : s.openPatch.Inv := { h with saved_le := fun _ => h.cursor_le }

theorem State.Inv.closePatch (ha : s.active = true) : s.closePatch.Inv :=
  { h with
    cursor_le := h.saved_le ha
    saved_le := nofun }

theorem State.Inv.seek (pos : CellAddr) : (s.seek pos).Inv := { h with cursor_le := cellAddr_cursor_le pos }

theorem State.Inv.setCell {a : Nat} (ha : a < memWords) (v : Word) : (s.setCell a v).Inv :=
  { h with mem_wf := Memory.wf_write h.mem_wf ha v }

omit h in
theorem State.inv_cleared (s : State) : s.cleared.Inv where
  mem_wf := rfl
  cursor_le := cellAddr_cursor_le s.cfg.codeStart
  saved_le := nofun
  faultPos_le := Nat.zero_le _
  compat_silent _ := rfl
  no_error_pos _ := rfl

theorem State.Inv.enterFaulted (f : Fault) : (s.enterFaulted f).Inv := { h with }

theorem State.Inv.pending (rest : List Command) : ({ s with pending := rest } : State).Inv := { h with }

/-- Every command keeps the invariants. -/
theorem State.Inv.runCommand {c : Command} {t : State} (ht : runCommand c s = .next t) : t.Inv := by
  cases runCommand_leaves ht with
  | emitted he hfit => exact h.emitted (by rwa [emittedWords_length])
  | rejected e _ hm => exact h.rejected e hm
  | read _ => exact h.answer _
  | opened => exact h.openPatch.answer _
  | sought pos _ => exact (h.seek pos).answer _
  | closed ha => exact (h.closePatch ha).answer _
  | poked addr v => exact (h.setCell addr.isLt v).answer _
  | cleared => exact (State.inv_cleared s).answer _

end Invariants

/-- Settles O52: a step is its command, or enters the faulted state. -/
theorem everyStepKeepsTheInvariants : Obligations.EveryStepKeepsTheInvariants := by
  intro s t hinv h
  obtain ⟨-, rfl⟩ | ⟨c, rest, -, h | ⟨f, -, -, rfl⟩⟩ := step_next h
  · exact hinv
  · exact (hinv.pending rest).runCommand h
  · exact (hinv.pending rest).enterFaulted f

end Sys2Proof.Machine
